-- ==== Sys2Proof/Word.lean ====
section
/-! DEFINITION. The words and byte sequences of the block (00_scope.md R9, R10; 30_encoding.md R80) and the closed
sets of names its encodings use: opcodes, register names, buffer selects, operand formats, decoder rejections. -/

namespace Sys2Proof

/-- A u8. -/
abbrev Byte := BitVec 8

/-- `Bytes` of R10: a finite byte sequence; index 0 is the byte sent first on the wire. -/
abbrev Bytes := List Byte

/-- The 32-bit command word of R80. -/
abbrev Word := BitVec 32

/-- The 29 opcodes of 30_encoding.md R84, in the table's order. Their numbers are `Opcode.byte` in Decode. -/
inductive Opcode where
  | csum | tcsum
  | ethEnc | ethDec | ethIsBcast | ethIsMcast
  | ipEnc | ipDec | ipIsFrag | ipIsFirst
  | tcpEnc | tcpDec | tcpHasFlag
  | udpEnc | udpDec
  | icmpEnc | icmpDec | icmpIsReq | icmpIsRep | icmpReply
  | connCreate | connConnect | connListen | connSend | connRecv | connClose
  | connSetCb | connRdReg | connRdBuf
  deriving DecidableEq, Repr

/-- The readable registers of one connection context, 10_state.md R26 (numbers 0 to 13, `Reg.number` in Decode). -/
inductive Reg where
  | state | sndSeq | rcvSeq | sndWnd | rcvWnd | cwnd | ssthresh
  | sndBufLen | rcvBufLen
  | localAddr | localPort | remoteAddr | remotePort | cbEn
  deriving DecidableEq, Repr

/-- The buffer select of CONN.RDBUF, 30_encoding.md R87: 0 is SND_BUF, 1 is RCV_BUF. -/
inductive BufSel where
  | snd | rcv
  deriving DecidableEq, Repr

/-- The operand record formats of 30_encoding.md R82. -/
inductive Format where
  | none | bytes | tcsum | eth | ip | tcp | udp | icmp | create
  deriving DecidableEq, Repr

/-- Why the decoder rejects a command word: the cases of 30_encoding.md R85 that the word alone decides. Each
makes the block answer Illegal (60_exceptions.md R271). Case (d), a context the block does not have, depends on
N_CONN and is checked where the context is looked up. -/
inductive DecodeError where
  /-- R85(a): OP is no opcode of R84. -/
  | undefinedOp
  /-- R85(b): RSV is not 0. -/
  | reservedBits
  /-- R85(c): a context-free opcode with CTX other than 0. -/
  | contextMisuse
  /-- R85(e): ARG has a bit set outside the opcode's field of R87. -/
  | argBits
  /-- R85(f): CONN.RDREG with a register number of 14 or more. -/
  | registerNumber
  deriving DecidableEq, Repr

end Sys2Proof
end

