-- ==== Sys2Proof/Syntax.lean ====
section
/-! DEFINITION. The commands of the block: one constructor per row of the opcode table (30_encoding.md R84). A
command carries what its command WORD carries: the context number k = CTX (R88) and the ARG field (R87), each at
its width. What the host passes beside the word, the operand record of R82, is read from the command port. -/

namespace Sys2Proof

inductive Instr where
  /-- CSUM (40_checksum.md R122). -/
  | csum
  /-- TCSUM (40_checksum.md R124). -/
  | tcsum
  /-- ETH.ENC (41_ethernet.md R141). -/
  | ethEnc
  /-- ETH.DEC (41_ethernet.md R143). -/
  | ethDec
  /-- ETH.ISBCAST (41_ethernet.md R145). -/
  | ethIsBcast
  /-- ETH.ISMCAST (41_ethernet.md R146). -/
  | ethIsMcast
  /-- IP.ENC (42_ipv4.md R161). -/
  | ipEnc
  /-- IP.DEC (42_ipv4.md R163). -/
  | ipDec
  /-- IP.ISFRAG (42_ipv4.md R166). -/
  | ipIsFrag
  /-- IP.ISFIRST (42_ipv4.md R167). -/
  | ipIsFirst
  /-- TCP.ENC (43_tcp_header.md R181). -/
  | tcpEnc
  /-- TCP.DEC (43_tcp_header.md R184). -/
  | tcpDec
  /-- TCP.HASFLAG with the flag mask m = ARG[5:0] (43_tcp_header.md R187). -/
  | tcpHasFlag (m : BitVec 6)
  /-- UDP.ENC (44_udp_icmp.md R201). -/
  | udpEnc
  /-- UDP.DEC (44_udp_icmp.md R203). -/
  | udpDec
  /-- ICMP.ENC (44_udp_icmp.md R211). -/
  | icmpEnc
  /-- ICMP.DEC (44_udp_icmp.md R213). -/
  | icmpDec
  /-- ICMP.ISREQ (44_udp_icmp.md R215). -/
  | icmpIsReq
  /-- ICMP.ISREP (44_udp_icmp.md R216). -/
  | icmpIsRep
  /-- ICMP.REPLY (44_udp_icmp.md R217). -/
  | icmpReply
  /-- CONN.CREATE ck (45_connection.md R231). -/
  | connCreate (k : BitVec 8)
  /-- CONN.CONNECT ck (45_connection.md R235). -/
  | connConnect (k : BitVec 8)
  /-- CONN.LISTEN ck (45_connection.md R240). -/
  | connListen (k : BitVec 8)
  /-- CONN.SEND ck (45_connection.md R245). -/
  | connSend (k : BitVec 8)
  /-- CONN.RECV ck (45_connection.md R250). -/
  | connRecv (k : BitVec 8)
  /-- CONN.CLOSE ck (45_connection.md R253). -/
  | connClose (k : BitVec 8)
  /-- CONN.SETCB ck with the enables e = ARG[1:0] (45_connection.md R258). -/
  | connSetCb (k : BitVec 8) (e : BitVec 2)
  /-- CONN.RDREG ck of register r (45_connection.md R256). -/
  | connRdReg (k : BitVec 8) (r : Reg)
  /-- CONN.RDBUF ck of the selected buffer (45_connection.md R259). -/
  | connRdBuf (k : BitVec 8) (b : BufSel)
  deriving DecidableEq, Repr

end Sys2Proof
end

