-- ==== Sys2Proof/WellFormed.lean ====
section
/-! DEFINITION. Well-formed commands. The fields of `Instr` are typed at their widths (00_scope.md R8) and register
numbers and buffer selects are names, so one check remains: a CONN.* command names a context the block has
(30_encoding.md R85(d), 45_connection.md R230). -/

namespace Sys2Proof

/-- The context a command addresses: CTX of a CONN.* command (30_encoding.md R88), none for every other command. -/
def Instr.context? : Instr → Option (BitVec 8)
  | .csum => none
  | .tcsum => none
  | .ethEnc => none
  | .ethDec => none
  | .ethIsBcast => none
  | .ethIsMcast => none
  | .ipEnc => none
  | .ipDec => none
  | .ipIsFrag => none
  | .ipIsFirst => none
  | .tcpEnc => none
  | .tcpDec => none
  | .tcpHasFlag _ => none
  | .udpEnc => none
  | .udpDec => none
  | .icmpEnc => none
  | .icmpDec => none
  | .icmpIsReq => none
  | .icmpIsRep => none
  | .icmpReply => none
  | .connCreate k => some k
  | .connConnect k => some k
  | .connListen k => some k
  | .connSend k => some k
  | .connRecv k => some k
  | .connClose k => some k
  | .connSetCb k _ => some k
  | .connRdReg k _ => some k
  | .connRdBuf k _ => some k

/-- A command is well formed for a block of `nConn` contexts when the context it addresses, if any, exists:
CTX < N_CONN (R85(d)). -/
def Instr.wellFormed (nConn : Nat) (i : Instr) : Bool :=
  match i.context? with
  | some k => decide (k.toNat < nConn)
  | none => true

end Sys2Proof
end

