-- ==== Sys2Proof/Decode.lean ====
section
/-! DEFINITION. The decoder and the encoder of the command word (30_encoding.md R80, R81, R84, R85, R87, R88). The
decoder is total on 32-bit words and rejects by name; the encoder is written from the same tables. -/

namespace Sys2Proof

/-! ## Fields of the command word (R80, R81) -/

/-- OP, bits 7:0. -/
def opField (w : Word) : BitVec 8 := w.extractLsb' 0 8

/-- ARG, bits 15:8. -/
def argField (w : Word) : BitVec 8 := w.extractLsb' 8 8

/-- CTX, bits 23:16. -/
def ctxField (w : Word) : BitVec 8 := w.extractLsb' 16 8

/-- RSV, bits 31:24. -/
def rsvField (w : Word) : BitVec 8 := w.extractLsb' 24 8

/-- The command word with RSV = 0 and the given fields (R80). -/
def commandWord (ctx arg op : BitVec 8) : Word := 0#8 ++ ctx ++ arg ++ op

/-! ## Opcodes, register numbers, buffer selects -/

/-- The OP column of R84. -/
def Opcode.byte : Opcode → BitVec 8
  | .csum => 0x01#8
  | .tcsum => 0x02#8
  | .ethEnc => 0x10#8
  | .ethDec => 0x11#8
  | .ethIsBcast => 0x12#8
  | .ethIsMcast => 0x13#8
  | .ipEnc => 0x20#8
  | .ipDec => 0x21#8
  | .ipIsFrag => 0x22#8
  | .ipIsFirst => 0x23#8
  | .tcpEnc => 0x30#8
  | .tcpDec => 0x31#8
  | .tcpHasFlag => 0x32#8
  | .udpEnc => 0x40#8
  | .udpDec => 0x41#8
  | .icmpEnc => 0x50#8
  | .icmpDec => 0x51#8
  | .icmpIsReq => 0x52#8
  | .icmpIsRep => 0x53#8
  | .icmpReply => 0x54#8
  | .connCreate => 0x60#8
  | .connConnect => 0x61#8
  | .connListen => 0x62#8
  | .connSend => 0x63#8
  | .connRecv => 0x64#8
  | .connClose => 0x65#8
  | .connSetCb => 0x66#8
  | .connRdReg => 0x67#8
  | .connRdBuf => 0x68#8

/-- Every opcode, in the order of R84. -/
def Opcode.all : List Opcode :=
  [.csum, .tcsum, .ethEnc, .ethDec, .ethIsBcast, .ethIsMcast, .ipEnc, .ipDec, .ipIsFrag, .ipIsFirst,
   .tcpEnc, .tcpDec, .tcpHasFlag, .udpEnc, .udpDec] ++
  [.icmpEnc, .icmpDec, .icmpIsReq, .icmpIsRep, .icmpReply, .connCreate, .connConnect, .connListen,
   .connSend, .connRecv, .connClose, .connSetCb, .connRdReg, .connRdBuf]

/-- The opcode of an OP byte; none for the reserved bytes of R85(a). -/
def Opcode.ofByte? (b : BitVec 8) : Option Opcode := Opcode.all.find? fun o => o.byte == b

/-- The register numbers of 10_state.md R26. -/
def Reg.number : Reg → BitVec 8
  | .state => 0#8
  | .sndSeq => 1#8
  | .rcvSeq => 2#8
  | .sndWnd => 3#8
  | .rcvWnd => 4#8
  | .cwnd => 5#8
  | .ssthresh => 6#8
  | .sndBufLen => 7#8
  | .rcvBufLen => 8#8
  | .localAddr => 9#8
  | .localPort => 10#8
  | .remoteAddr => 11#8
  | .remotePort => 12#8
  | .cbEn => 13#8

/-- Every register, by number. -/
def Reg.all : List Reg :=
  [.state, .sndSeq, .rcvSeq, .sndWnd, .rcvWnd, .cwnd, .ssthresh, .sndBufLen, .rcvBufLen, .localAddr, .localPort,
   .remoteAddr, .remotePort, .cbEn]

/-- The register of a number; none for 14 to 255 (R85(f)). -/
def Reg.ofNumber? (n : BitVec 8) : Option Reg := Reg.all.find? fun r => r.number == n

/-- The buffer select bit of R87. -/
def BufSel.bit : BufSel → BitVec 1
  | .snd => 0#1
  | .rcv => 1#1

/-- The buffer that a select bit names (R87). -/
def BufSel.ofBit (s : BitVec 1) : BufSel := if s = 0#1 then .snd else .rcv

/-! ## Decoding -/

/-- R85(e) for the opcodes that use no ARG: ARG must be 0. -/
def noArg (arg : BitVec 8) (i : Instr) : Except DecodeError Instr :=
  if arg = 0#8 then .ok i else .error .argBits

/-- R85(c): a context-free opcode requires CTX = 0. -/
def contextFree (ctx : BitVec 8) (r : Except DecodeError Instr) : Except DecodeError Instr :=
  if ctx = 0#8 then r else .error .contextMisuse

/-- The command of an opcode with the CTX and ARG of its word (R84, R87, R88). -/
def Opcode.build (o : Opcode) (ctx arg : BitVec 8) : Except DecodeError Instr :=
  match o with
  | .csum => contextFree ctx (noArg arg .csum)
  | .tcsum => contextFree ctx (noArg arg .tcsum)
  | .ethEnc => contextFree ctx (noArg arg .ethEnc)
  | .ethDec => contextFree ctx (noArg arg .ethDec)
  | .ethIsBcast => contextFree ctx (noArg arg .ethIsBcast)
  | .ethIsMcast => contextFree ctx (noArg arg .ethIsMcast)
  | .ipEnc => contextFree ctx (noArg arg .ipEnc)
  | .ipDec => contextFree ctx (noArg arg .ipDec)
  | .ipIsFrag => contextFree ctx (noArg arg .ipIsFrag)
  | .ipIsFirst => contextFree ctx (noArg arg .ipIsFirst)
  | .tcpEnc => contextFree ctx (noArg arg .tcpEnc)
  | .tcpDec => contextFree ctx (noArg arg .tcpDec)
  | .tcpHasFlag =>
    contextFree ctx
      (if arg.extractLsb' 6 2 = 0#2 then .ok (.tcpHasFlag (arg.extractLsb' 0 6)) else .error .argBits)
  | .udpEnc => contextFree ctx (noArg arg .udpEnc)
  | .udpDec => contextFree ctx (noArg arg .udpDec)
  | .icmpEnc => contextFree ctx (noArg arg .icmpEnc)
  | .icmpDec => contextFree ctx (noArg arg .icmpDec)
  | .icmpIsReq => contextFree ctx (noArg arg .icmpIsReq)
  | .icmpIsRep => contextFree ctx (noArg arg .icmpIsRep)
  | .icmpReply => contextFree ctx (noArg arg .icmpReply)
  | .connCreate => noArg arg (.connCreate ctx)
  | .connConnect => noArg arg (.connConnect ctx)
  | .connListen => noArg arg (.connListen ctx)
  | .connSend => noArg arg (.connSend ctx)
  | .connRecv => noArg arg (.connRecv ctx)
  | .connClose => noArg arg (.connClose ctx)
  | .connSetCb =>
    if arg.extractLsb' 2 6 = 0#6 then .ok (.connSetCb ctx (arg.extractLsb' 0 2)) else .error .argBits
  | .connRdReg =>
    match Reg.ofNumber? arg with
    | some r => .ok (.connRdReg ctx r)
    | none => .error .registerNumber
  | .connRdBuf =>
    if arg.extractLsb' 1 7 = 0#7 then .ok (.connRdBuf ctx (BufSel.ofBit (arg.extractLsb' 0 1)))
    else .error .argBits

/-- The command of a command word, or why the word is illegal (R84, R85 but for its case (d)). -/
def decode (w : Word) : Except DecodeError Instr :=
  match Opcode.ofByte? (opField w) with
  | none => .error .undefinedOp
  | some o => if rsvField w = 0#8 then o.build (ctxField w) (argField w) else .error .reservedBits

/-- The host's question: the command of a word of `nbits` bits numbered as the opcode table numbers them. Every
row of the table is one 32-bit command word, and the bits above `nbits` are 0. -/
def decodeTableWord (nbits w : Nat) : Option Instr :=
  match decode (BitVec.ofNat 32 (w % 2 ^ nbits)) with
  | .ok i => some i
  | .error _ => none

/-! ## Encoding -/

/-- The opcode of a command (R84). -/
def Instr.opcode : Instr → Opcode
  | .csum => .csum
  | .tcsum => .tcsum
  | .ethEnc => .ethEnc
  | .ethDec => .ethDec
  | .ethIsBcast => .ethIsBcast
  | .ethIsMcast => .ethIsMcast
  | .ipEnc => .ipEnc
  | .ipDec => .ipDec
  | .ipIsFrag => .ipIsFrag
  | .ipIsFirst => .ipIsFirst
  | .tcpEnc => .tcpEnc
  | .tcpDec => .tcpDec
  | .tcpHasFlag _ => .tcpHasFlag
  | .udpEnc => .udpEnc
  | .udpDec => .udpDec
  | .icmpEnc => .icmpEnc
  | .icmpDec => .icmpDec
  | .icmpIsReq => .icmpIsReq
  | .icmpIsRep => .icmpIsRep
  | .icmpReply => .icmpReply
  | .connCreate _ => .connCreate
  | .connConnect _ => .connConnect
  | .connListen _ => .connListen
  | .connSend _ => .connSend
  | .connRecv _ => .connRecv
  | .connClose _ => .connClose
  | .connSetCb _ _ => .connSetCb
  | .connRdReg _ _ => .connRdReg
  | .connRdBuf _ _ => .connRdBuf

/-- The CTX field of a command's word (R88): k for a CONN.* command, else 0. -/
def Instr.ctx (i : Instr) : BitVec 8 := i.context?.getD 0#8

/-- The ARG field of a command's word (R87): the four opcodes that use ARG, else 0. -/
def Instr.arg : Instr → BitVec 8
  | .tcpHasFlag m => 0#2 ++ m
  | .connSetCb _ e => 0#6 ++ e
  | .connRdReg _ r => r.number
  | .connRdBuf _ b => 0#7 ++ b.bit
  | .csum | .tcsum | .ethEnc | .ethDec | .ethIsBcast | .ethIsMcast | .ipEnc | .ipDec | .ipIsFrag | .ipIsFirst
  | .tcpEnc | .tcpDec | .udpEnc | .udpDec | .icmpEnc | .icmpDec | .icmpIsReq | .icmpIsRep | .icmpReply
  | .connCreate _ | .connConnect _ | .connListen _ | .connSend _ | .connRecv _ | .connClose _ => 0#8

/-- The command word of a command (R80, R84). -/
def encode (i : Instr) : Word := commandWord i.ctx i.arg i.opcode.byte

/-- The operand record format of a command: the format column of R84. -/
def Instr.format : Instr → Format
  | .csum | .ethDec | .ipDec | .tcpDec | .udpDec | .icmpDec | .connSend _ | .connRecv _ => .bytes
  | .tcsum => .tcsum
  | .ethEnc | .ethIsBcast | .ethIsMcast => .eth
  | .ipEnc | .ipIsFrag | .ipIsFirst => .ip
  | .tcpEnc | .tcpHasFlag _ => .tcp
  | .udpEnc => .udp
  | .icmpEnc | .icmpIsReq | .icmpIsRep | .icmpReply => .icmp
  | .connCreate _ => .create
  | .connConnect _ | .connListen _ | .connClose _ | .connSetCb _ _ | .connRdReg _ _ | .connRdBuf _ _ => .none

end Sys2Proof
end

