-- ==== Sys2Proof/Config.lean ====
section
/-! DEFINITION. What an implementation fixes and the spec leaves to it (00_scope.md R7): the named parameters, as
plain data, and the free values, as constants with no body. Nothing can prove a value of a constant below, so a
claim about a state reset gives holds for every one. -/

namespace Sys2Proof

/-- UDP_CSUM_SCOPE of R7: what UDP.ENC's checksum covers (44_udp_icmp.md R201). -/
inductive CsumScope where
  /-- HDR_PAYLOAD: header and payload. -/
  | hdrPayload
  /-- HDR_ONLY: the 8-byte header. -/
  | hdrOnly
  deriving DecidableEq, Repr, Inhabited

/-- The parameters of 00_scope.md R7, all but N_CONN (which is the number of contexts the state holds). Each is
typed so that exactly its range of R7 can be written. -/
structure Params where
  /-- MAX_OPERAND_BYTES − 65547: the parameter is any integer of at least 65547 (20_memory.md R62). -/
  extraOperandBytes : Nat
  /-- CONN_BUF_CAP: a number of bytes, or none for ∞ (10_state.md R31). -/
  connBufCap : Option Nat
  /-- INIT_SND_SEQ (10_state.md R32). -/
  initSndSeq : BitVec 32
  /-- INIT_RCV_SEQ. -/
  initRcvSeq : BitVec 32
  /-- INIT_SND_WND. -/
  initSndWnd : BitVec 32
  /-- INIT_RCV_WND. -/
  initRcvWnd : BitVec 32
  /-- INIT_CWND. -/
  initCwnd : BitVec 32
  /-- INIT_SSTHRESH. -/
  initSsthresh : BitVec 32
  /-- P_SYN_ADV, 0 or 1 (45_connection.md R236). -/
  pSynAdv : BitVec 1
  /-- UDP_CSUM_SCOPE (44_udp_icmp.md R201). -/
  udpCsumScope : CsumScope
  deriving DecidableEq, Repr

/-- The least MAX_OPERAND_BYTES (R62): the 12-byte pseudo-header plus a 65535-byte UDP packet. -/
abbrev minOperandBytes : Nat := 65547

/-- MAX_OPERAND_BYTES (R7, R62). -/
def Params.maxOperandBytes (p : Params) : Nat := minOperandBytes + p.extraOperandBytes

/-! ## OPEN parameters of the block that `State.reset` describes (log entry 2) -/

opaque Config.extraOperandBytes : Nat
opaque Config.initSndSeq : BitVec 32
opaque Config.initRcvSeq : BitVec 32
opaque Config.initSndWnd : BitVec 32
opaque Config.initRcvWnd : BitVec 32
opaque Config.initCwnd : BitVec 32
opaque Config.initSsthresh : BitVec 32
opaque Config.pSynAdv : BitVec 1
opaque Config.udpCsumScope : CsumScope

/-- The parameters of the block `State.reset` describes: the OPEN ones free, CONN_BUF_CAP at its spec default ∞. -/
def Config.params : Params where
  extraOperandBytes := Config.extraOperandBytes
  connBufCap := none
  initSndSeq := Config.initSndSeq
  initRcvSeq := Config.initRcvSeq
  initSndWnd := Config.initSndWnd
  initRcvWnd := Config.initRcvWnd
  initCwnd := Config.initCwnd
  initSsthresh := Config.initSsthresh
  pSynAdv := Config.pSynAdv
  udpCsumScope := Config.udpCsumScope

/-- N_CONN of the block `State.reset` describes: the spec default of R7. -/
def Config.nConn : Nat := 1

/-! ## Free values -/

/-- `draw_u32()` of 45_connection.md R236, a free input: the n-th draw the block makes. No body: every 32-bit value
is possible and no distribution is assumed (92_eei_decisions.md D19; log entry 3). -/
opaque Config.isnDraw : Nat → BitVec 32

end Sys2Proof
end

