-- ==== Sys2Proof/Machine/State.lean ====
section
/-! DEFINITION. The state of the block as plain data: the connection contexts (10_state.md R25, R26), the command
port with the commands the host has presented and the operand record of the command in progress, the responses the
host has not taken (00_scope.md R3, 70_reset_and_hazards.md R300), the parameters (R7) and the count of draws. -/

namespace Sys2Proof.Machine

/-! ## Stops -/

/-- The block has no fault that stops it: every error is a response and the next command is accepted at once
(60_exceptions.md R274), and every command completes (20_memory.md R74). No step answers a fault. -/
inductive Fault where
  deriving DecidableEq, Repr

/-- Why a step has no meaning. -/
inductive Refusal where
  /-- An instruction of the table with no meaning yet, by its mnemonic. Raised by a refused arm of `exec` only; no
  arm is refused. Safe: the model stops where the block goes on. -/
  | notModelled (mnemonic : String)
  deriving DecidableEq, Repr

/-! ## Operand records, 30_encoding.md R82. A field that the host omits is 0 or empty (R101). -/

/-- F_BYTES. -/
structure FBytes where
  data : Bytes := []
  deriving DecidableEq, Repr

/-- F_TCSUM. -/
structure FTcsum where
  header : Bytes := []
  payload : Bytes := []
  srcAddr : BitVec 32 := 0#32
  dstAddr : BitVec 32 := 0#32
  proto : BitVec 8 := 0#8
  deriving DecidableEq, Repr

/-- F_ETH; `etype` is the field `type`. -/
structure FEth where
  dst : BitVec 48 := 0#48
  src : BitVec 48 := 0#48
  etype : BitVec 16 := 0#16
  payload : Bytes := []
  deriving DecidableEq, Repr

/-- F_IP. -/
structure FIp where
  version : BitVec 4 := 0#4
  ihl : BitVec 4 := 0#4
  tos : BitVec 8 := 0#8
  totalLen : BitVec 16 := 0#16
  id : BitVec 16 := 0#16
  flags : BitVec 3 := 0#3
  fragOff : BitVec 13 := 0#13
  ttl : BitVec 8 := 0#8
  proto : BitVec 8 := 0#8
  checksum : BitVec 16 := 0#16
  src : BitVec 32 := 0#32
  dst : BitVec 32 := 0#32
  deriving DecidableEq, Repr

/-- F_TCP. -/
structure FTcp where
  srcPort : BitVec 16 := 0#16
  dstPort : BitVec 16 := 0#16
  seq : BitVec 32 := 0#32
  ack : BitVec 32 := 0#32
  dataOff : BitVec 4 := 0#4
  flags : BitVec 6 := 0#6
  window : BitVec 16 := 0#16
  checksum : BitVec 16 := 0#16
  urgent : BitVec 16 := 0#16
  options : Bytes := []
  deriving DecidableEq, Repr

/-- F_UDP. -/
structure FUdp where
  srcPort : BitVec 16 := 0#16
  dstPort : BitVec 16 := 0#16
  length : BitVec 16 := 0#16
  checksum : BitVec 16 := 0#16
  payload : Bytes := []
  deriving DecidableEq, Repr

/-- F_ICMP; `itype` is the field `type`. -/
structure FIcmp where
  itype : BitVec 8 := 0#8
  code : BitVec 8 := 0#8
  checksum : BitVec 16 := 0#16
  id : BitVec 16 := 0#16
  seq : BitVec 16 := 0#16
  payload : Bytes := []
  deriving DecidableEq, Repr

/-- F_CREATE. -/
structure FCreate where
  localAddr : BitVec 32 := 0#32
  localPort : BitVec 16 := 0#16
  remoteAddr : BitVec 32 := 0#32
  remotePort : BitVec 16 := 0#16
  deriving DecidableEq, Repr

/-- What the command port carries beside the command word: a record in each format of R82. The opcode selects the
format, and a command reads the record of its own format only, so the others are never looked at (log entry 4). -/
structure OperandRecord where
  bytes : FBytes := {}
  tcsum : FTcsum := {}
  eth : FEth := {}
  ip : FIp := {}
  tcp : FTcp := {}
  udp : FUdp := {}
  icmp : FIcmp := {}
  create : FCreate := {}
  deriving DecidableEq, Repr

/-- One command as the host presents it: the command word and the operand record (R3, R80). -/
structure Command where
  word : Word
  op : OperandRecord := {}
  deriving DecidableEq, Repr

/-! ## Responses, 30_encoding.md R83 -/

/-- The four error kinds of 60_exceptions.md R270. -/
inductive ErrorKind where
  | tooShort
  | tooLarge
  | invalidState
  | illegal
  deriving DecidableEq, Repr

/-- The status of a response: OK or one error kind. Its codes are `Status.code` in Flags. -/
inductive Status where
  | ok
  | error (e : ErrorKind)
  deriving DecidableEq, Repr

/-- The result of a response: an integer of a stated width, a Bytes value or a record of R82. -/
inductive Result where
  | u1 (v : BitVec 1)
  | u16 (v : BitVec 16)
  | u32 (v : BitVec 32)
  | bytes (b : Bytes)
  | eth (f : FEth)
  | ip (f : FIp)
  | tcp (f : FTcp)
  | udp (f : FUdp)
  | icmp (f : FIcmp)
  deriving DecidableEq, Repr

/-- The notifications of 60_exceptions.md R276 and R277. -/
inductive Notification where
  /-- StateChange(s) with the u4 code of the state just entered. -/
  | stateChange (s : BitVec 4)
  /-- DataReceived(d). -/
  | dataReceived (d : Bytes)
  deriving DecidableEq, Repr

/-- A response: status, result (none when the status is not OK, and for the commands that return none), notes. -/
structure Response where
  status : Status
  result : Option Result
  notes : List Notification
  deriving DecidableEq, Repr

/-! ## Connection contexts -/

/-- The eleven states of 10_state.md R27, in the source's order. Their codes are `TcpState.code` in Flags. -/
inductive TcpState where
  | closed | listen | synSent | synReceived | established | finWait1 | finWait2 | closeWait | closing | lastAck
  | timeWait
  deriving DecidableEq, Repr

/-- One connection context C[k]: the registers of 10_state.md R26 and the two buffers of R31. SND_BUF_LEN and
RCV_BUF_LEN are views of the buffers and have no home of their own. -/
structure Conn where
  /-- STATE. -/
  state : TcpState
  /-- SND_SEQ. -/
  sndSeq : BitVec 32
  /-- RCV_SEQ. -/
  rcvSeq : BitVec 32
  /-- SND_WND. -/
  sndWnd : BitVec 32
  /-- RCV_WND. -/
  rcvWnd : BitVec 32
  /-- CWND. -/
  cwnd : BitVec 32
  /-- SSTHRESH. -/
  ssthresh : BitVec 32
  /-- SND_BUF. -/
  sndBuf : Bytes
  /-- RCV_BUF. -/
  rcvBuf : Bytes
  /-- LOCAL_ADDR. -/
  localAddr : BitVec 32
  /-- LOCAL_PORT. -/
  localPort : BitVec 16
  /-- REMOTE_ADDR. -/
  remoteAddr : BitVec 32
  /-- REMOTE_PORT. -/
  remotePort : BitVec 16
  /-- CB_EN: bit 0 STATE_CB, bit 1 DATA_CB (R34). -/
  cbEn : BitVec 2
  deriving DecidableEq, Repr

/-- A context at hardware reset (10_state.md R32, R36): the creation values, with the address and port registers 0. -/
def Conn.reset (p : Params) : Conn where
  state := .closed
  sndSeq := p.initSndSeq
  rcvSeq := p.initRcvSeq
  sndWnd := p.initSndWnd
  rcvWnd := p.initRcvWnd
  cwnd := p.initCwnd
  ssthresh := p.initSsthresh
  sndBuf := []
  rcvBuf := []
  localAddr := 0#32
  localPort := 0#16
  remoteAddr := 0#32
  remotePort := 0#16
  cbEn := 0#2

/-! ## The state -/

structure State where
  /-- C[0..N_CONN): the contexts; N_CONN is the length of this list (R25). -/
  conns : List Conn
  /-- The commands presented and not yet performed, in the order the block performs them: for one context the order in
  which they were presented; across contexts and command sources any order, fixed outside the block (20_memory.md R71,
  R72; log entry 6). -/
  pending : List Command
  /-- The operand record of the command in progress: `op.F` of 00_scope.md R11. -/
  op : OperandRecord
  /-- The responses the host has not yet taken, oldest first (R300). -/
  responses : List Response
  /-- The parameters of R7, fixed for the block: no step writes them (log entry 1). -/
  cfg : Params
  /-- How many draws of R236 the block has made: the model's own field (log entry 3). -/
  draws : Nat
  deriving DecidableEq, Repr

/-- A block with parameters `p` and `n` contexts right after hardware reset (70_reset_and_hazards.md R300): every context
at its creation values, no command in progress, no response to be taken. DESIGN CHOICE (log entry 20): no command is
presented either. -/
def State.resetWith (p : Params) (n : Nat) : State where
  conns := List.replicate n (Conn.reset p)
  pending := []
  op := {}
  responses := []
  cfg := p
  draws := 0

/-- The block right after hardware reset. -/
def State.reset : State := State.resetWith Config.params Config.nConn

end Sys2Proof.Machine
end

