-- ==== Sys2Proof/Machine/Flags.lean ====
section
/-! DEFINITION. The block has no status flags and no condition codes (10_state.md R24): the only condition outputs
are a response's status, the u1 result of a predicate command, and the notifications CB_EN lets through. Their codes
and computations stand here. -/

namespace Sys2Proof.Machine

/-- The status codes of 30_encoding.md R83. -/
def Status.code : Status → BitVec 3
  | .ok => 0#3
  | .error .tooShort => 1#3
  | .error .tooLarge => 2#3
  | .error .invalidState => 3#3
  | .error .illegal => 4#3

/-- The state codes of 10_state.md R27. -/
def TcpState.code : TcpState → BitVec 4
  | .closed => 0#4
  | .listen => 1#4
  | .synSent => 2#4
  | .synReceived => 3#4
  | .established => 4#4
  | .finWait1 => 5#4
  | .finWait2 => 6#4
  | .closeWait => 7#4
  | .closing => 8#4
  | .lastAck => 9#4
  | .timeWait => 10#4

/-- `notify(StateChange(s))` under CB_EN: appended only where bit 0 is 1 (60_exceptions.md R275, R276). -/
def noteState (cbEn : BitVec 2) (s : TcpState) : List Notification :=
  if cbEn.getLsbD 0 then [.stateChange s.code] else []

/-- `notify(DataReceived(d))` under CB_EN: appended only where bit 1 is 1 (R275, R277). -/
def noteData (cbEn : BitVec 2) (d : Bytes) : List Notification :=
  if cbEn.getLsbD 1 then [.dataReceived d] else []

/-- Broadcast: the destination is all ones (41_ethernet.md R145). -/
def ethIsBroadcast (x : FEth) : BitVec 1 := BitVec.ofBool (x.dst == 0xFFFFFFFFFFFF#48)

/-- Multicast: bit 40 of the destination, the low bit of its first octet (41_ethernet.md R146). -/
def ethIsMulticast (x : FEth) : BitVec 1 := BitVec.ofBool (x.dst.getLsbD 40)

/-- A fragment: MF (flags bit 0) is 1 or the offset is not 0 (42_ipv4.md R166). -/
def ipIsFragment (x : FIp) : BitVec 1 := BitVec.ofBool (x.flags.getLsbD 0 || x.fragOff != 0#13)

/-- A first fragment: the offset is 0 (42_ipv4.md R167). -/
def ipIsFirstFragment (x : FIp) : BitVec 1 := BitVec.ofBool (x.fragOff == 0#13)

/-- Every flag of the mask is set (43_tcp_header.md R187). -/
def tcpHasFlags (m : BitVec 6) (x : FTcp) : BitVec 1 := BitVec.ofBool (x.flags &&& m == m)

/-- The ICMP type of an Echo Request (30_encoding.md R98). -/
abbrev icmpEchoRequest : BitVec 8 := 8#8

/-- The ICMP type of an Echo Reply (30_encoding.md R98). -/
abbrev icmpEchoReply : BitVec 8 := 0#8

/-- An Echo Request, by the type alone (44_udp_icmp.md R215). -/
def icmpIsRequest (x : FIcmp) : BitVec 1 := BitVec.ofBool (x.itype == icmpEchoRequest)

/-- An Echo Reply, by the type alone (44_udp_icmp.md R216). -/
def icmpIsReply (x : FIcmp) : BitVec 1 := BitVec.ofBool (x.itype == icmpEchoReply)

end Sys2Proof.Machine
end

