-- ==== Sys2Proof/Machine/Operands.lean ====
section
/-! DEFINITION. The operand record formats at work: which byte sequences a command's record holds, and the length
limit of MAX_OPERAND_BYTES (20_memory.md R62). -/

namespace Sys2Proof.Machine

/-- The Bytes fields of the record in format `f` (30_encoding.md R82). -/
def OperandRecord.byteFields (op : OperandRecord) : Format → List Bytes
  | .none => []
  | .bytes => [op.bytes.data]
  | .tcsum => [op.tcsum.header, op.tcsum.payload]
  | .eth => [op.eth.payload]
  | .ip => []
  | .tcp => [op.tcp.options]
  | .udp => [op.udp.payload]
  | .icmp => [op.icmp.payload]
  | .create => []

/-- A byte sequence of `n` bytes is within MAX_OPERAND_BYTES = 65547 + extra (`fits_iff` in Laws/Ops says that this
is `n ≤ MAX_OPERAND_BYTES`; written so that a length of at most 65547 is accepted without reading the parameter). -/
def fits (p : Params) (n : Nat) : Bool := decide (n - minOperandBytes ≤ p.extraOperandBytes)

/-- Some Bytes field of the record of format `f` is longer than MAX_OPERAND_BYTES (R62). -/
def oversized (p : Params) (f : Format) (op : OperandRecord) : Bool :=
  (op.byteFields f).any fun B => !fits p B.length

/-- The Bytes fields of a result (30_encoding.md R82, R83). -/
def Result.byteFields : Result → List Bytes
  | .u1 _ => []
  | .u16 _ => []
  | .u32 _ => []
  | .bytes b => [b]
  | .eth f => [f.payload]
  | .ip _ => []
  | .tcp f => [f.options]
  | .udp f => [f.payload]
  | .icmp f => [f.payload]

/-- A byte sequence as a result: one longer than MAX_OPERAND_BYTES is no result (R62) and gives TooLarge, as
45_connection.md R259 says of CONN.RDBUF. -/
def boundedResult (p : Params) (B : Bytes) : Except ErrorKind Bytes :=
  if fits p B.length then .ok B else .error .tooLarge

/-- A buffer of `n` bytes is within CONN_BUF_CAP, which may be ∞ (10_state.md R31). -/
def withinCap (cap : Option Nat) (n : Nat) : Bool :=
  match cap with
  | none => true
  | some c => decide (n ≤ c)

end Sys2Proof.Machine
end

