-- ==== Sys2Proof/Machine/Ops.lean ====
section
/-! DEFINITION. The named operations every command is made of: returning a response, raising an error, reading and
writing a context, and the two shapes of a command (20_memory.md R66, 60_exceptions.md R270 to R274). -/

namespace Sys2Proof.Machine

/-- What a step answers. -/
abbrev Answer := Host.Outcome State Fault Refusal

/-- Return a response to the host, after every response before it (00_scope.md R3). -/
def State.respond (s : State) (r : Response) : State := { s with responses := s.responses ++ [r] }

/-- The response of a command that ends in an error: no result and no notification (R272). -/
def Response.failure (e : ErrorKind) : Response := { status := .error e, result := none, notes := [] }

/-- The response of a command that ends OK. -/
def Response.success (result : Option Result) (notes : List Notification) : Response :=
  { status := .ok, result := result, notes := notes }

/-- `raise Error(kind)`: the block's whole exception mechanism. The command ends with the status, everything it
wrote is discarded, nothing is saved and control goes nowhere: the state but for the response is the one before the
command, and the next command is accepted at once (00_scope.md R11, 60_exceptions.md R272, R274, R280). -/
def State.raise (s : State) (e : ErrorKind) : Answer := .next (s.respond (.failure e))

/-- A context-free command (10_state.md R20): the common length check (60_exceptions.md R271, R273), then a function of
the operand record to an error or a result. It reads and writes no context. -/
def State.stateless (s : State) (f : Format) (run : OperandRecord → Except ErrorKind Result) : Answer :=
  if oversized s.cfg f s.op then s.raise .tooLarge
  else
    match run s.op with
    | .error e => s.raise e
    | .ok r => .next (s.respond (.success (some r) []))

/-- N_CONN: the number of contexts (10_state.md R25). -/
def State.nConn (s : State) : Nat := s.conns.length

/-- `C[k]`, if the block has it. -/
def State.conn? (s : State) (k : BitVec 8) : Option Conn := s.conns[k.toNat]?

/-- Write context k whole. -/
def State.setConn (s : State) (k : BitVec 8) (c : Conn) : State := { s with conns := s.conns.set k.toNat c }

/-- The next draw of the free input `draw_u32()` (45_connection.md R236). -/
def State.isn (s : State) : BitVec 32 := Config.isnDraw s.draws

/-- Count the draws a command made. -/
def State.advanceDraws (s : State) (n : Nat) : State := { s with draws := s.draws + n }

/-- Hardware reset of this block (70_reset_and_hazards.md R300), an input from outside the command port: every context at
its creation values, the command in progress and the responses not yet taken discarded. DESIGN CHOICE (log entry 20):
the commands presented but not yet performed, of which R300 says nothing, are discarded too. DESIGN CHOICE (log entry
3): the draws go on. -/
def State.hardwareReset (s : State) : State := { State.resetWith s.cfg s.nConn with draws := s.draws }

/-- What a CONN.* command that succeeds leaves: the context, the result and notifications of its response, and how
many draws it made. -/
structure Done where
  conn : Conn
  result : Option Result := none
  notes : List Notification := []
  draws : Nat := 0
  deriving DecidableEq, Repr

/-- A CONN.* command on context k (45_connection.md R230), its checks in the order of 60_exceptions.md R273: a context the
block does not have is Illegal (30_encoding.md R85(d)), then the common length check, then the command's own checks
and effect on `C[k]`, in one indivisible step (20_memory.md R66). -/
def State.onContext (s : State) (k : BitVec 8) (f : Format) (run : Conn → Except ErrorKind Done) : Answer :=
  match s.conn? k with
  | none => s.raise .illegal
  | some c =>
    if oversized s.cfg f s.op then s.raise .tooLarge
    else
      match run c with
      | .error e => s.raise e
      | .ok d => .next (((s.setConn k d.conn).advanceDraws d.draws).respond (.success d.result d.notes))

end Sys2Proof.Machine
end

