-- ==== Sys2Proof/Machine/Connection.lean ====
section
/-! DEFINITION. The connection contexts' commands (45_connection.md). Each is a function of the context (and of what
the rule reads beside it) to an error or to what the command leaves, run by `State.onContext`. -/

namespace Sys2Proof.Machine

/-- The context CONN.CREATE leaves (R231); nothing of the context before it survives. -/
def connCreated (p : Params) (x : FCreate) : Conn where
  state := .closed
  sndSeq := p.initSndSeq
  rcvSeq := p.initRcvSeq
  sndWnd := p.initSndWnd
  rcvWnd := p.initRcvWnd
  cwnd := p.initCwnd
  ssthresh := p.initSsthresh
  sndBuf := []
  rcvBuf := []
  localAddr := x.localAddr
  localPort := x.localPort
  remoteAddr := x.remoteAddr
  remotePort := x.remotePort
  cbEn := 0#2

/-- CONN.CONNECT with the draw `isn` (R235, R236), write by write: SND_SEQ and SYN_SENT, then RCV_SEQ from the peer's
advertised sequence (the SYN's own), SND_SEQ with P_SYN_ADV, and ESTABLISHED with its one notification. -/
def connConnected (p : Params) (isn : BitVec 32) (c : Conn) : Except ErrorKind Done :=
  if c.state ≠ .closed then .error .invalidState
  else
    let c := { c with sndSeq := isn }
    let c := { c with state := .synSent }
    let c := { c with rcvSeq := isn + 1#32 }
    let c := { c with sndSeq := isn + p.pSynAdv.setWidth 32 }
    let c := { c with state := .established }
    .ok { conn := c, notes := noteState c.cbEn .established, draws := 1 }

/-- CONN.LISTEN (R240): unconditional, and the notification is sent every time. -/
def connListening (c : Conn) : Done :=
  { conn := { c with state := .listen }, notes := noteState c.cbEn .listen }

/-- CONN.SEND of `data` (R245): the state check before the capacity check (60_exceptions.md R273). -/
def connSent (p : Params) (data : Bytes) (c : Conn) : Except ErrorKind Done :=
  if c.state ≠ .established then .error .invalidState
  else if !withinCap p.connBufCap (c.sndBuf.length + data.length) then .error .tooLarge
  else
    .ok { conn := { c with sndBuf := c.sndBuf ++ data, sndSeq := c.sndSeq + BitVec.ofNat 32 data.length } }

/-- CONN.RECV of `data` (R250): no state check. -/
def connReceived (p : Params) (data : Bytes) (c : Conn) : Except ErrorKind Done :=
  if !withinCap p.connBufCap (c.rcvBuf.length + data.length) then .error .tooLarge
  else
    .ok
      { conn := { c with rcvBuf := c.rcvBuf ++ data, rcvSeq := c.rcvSeq + BitVec.ofNat 32 data.length }
        notes := noteData c.cbEn data }

/-- CONN.CLOSE (R253, R254): nothing when CLOSED; else FIN_WAIT_1 with the one notification, then CLOSED. -/
def connClosed (c : Conn) : Done :=
  if c.state = .closed then { conn := c }
  else
    let c := { c with state := .finWait1 }
    let notes := noteState c.cbEn .finWait1
    { conn := { c with state := .closed }, notes := notes }

/-- Register r of a context, zero-extended to 32 bits (R256; 10_state.md R26). -/
def Conn.read (c : Conn) : Reg → BitVec 32
  | .state => c.state.code.setWidth 32
  | .sndSeq => c.sndSeq
  | .rcvSeq => c.rcvSeq
  | .sndWnd => c.sndWnd
  | .rcvWnd => c.rcvWnd
  | .cwnd => c.cwnd
  | .ssthresh => c.ssthresh
  | .sndBufLen => BitVec.ofNat 32 c.sndBuf.length
  | .rcvBufLen => BitVec.ofNat 32 c.rcvBuf.length
  | .localAddr => c.localAddr
  | .localPort => c.localPort.setWidth 32
  | .remoteAddr => c.remoteAddr
  | .remotePort => c.remotePort.setWidth 32
  | .cbEn => c.cbEn.setWidth 32

/-- The buffer CONN.RDBUF selects (R259). -/
def Conn.buffer (c : Conn) : BufSel → Bytes
  | .snd => c.sndBuf
  | .rcv => c.rcvBuf

/-- CONN.RDBUF (R259): the whole buffer, when a result may be that long (20_memory.md R62). -/
def connBufferRead (p : Params) (b : BufSel) (c : Conn) : Except ErrorKind Done :=
  (boundedResult p (c.buffer b)).map fun buf => { conn := c, result := some (.bytes buf) }

/-- CONN.CREATE (R231). -/
def execConnCreate (k : BitVec 8) (s : State) : Answer :=
  s.onContext k .create fun _ => .ok { conn := connCreated s.cfg s.op.create }

/-- CONN.CONNECT (R235). -/
def execConnConnect (k : BitVec 8) (s : State) : Answer := s.onContext k .none (connConnected s.cfg s.isn)

/-- CONN.LISTEN (R240). -/
def execConnListen (k : BitVec 8) (s : State) : Answer := s.onContext k .none fun c => .ok (connListening c)

/-- CONN.SEND (R245). -/
def execConnSend (k : BitVec 8) (s : State) : Answer := s.onContext k .bytes (connSent s.cfg s.op.bytes.data)

/-- CONN.RECV (R250). -/
def execConnRecv (k : BitVec 8) (s : State) : Answer := s.onContext k .bytes (connReceived s.cfg s.op.bytes.data)

/-- CONN.CLOSE (R253). -/
def execConnClose (k : BitVec 8) (s : State) : Answer := s.onContext k .none fun c => .ok (connClosed c)

/-- CONN.SETCB (R258). -/
def execConnSetCb (k : BitVec 8) (e : BitVec 2) (s : State) : Answer :=
  s.onContext k .none fun c => .ok { conn := { c with cbEn := e } }

/-- CONN.RDREG (R256). -/
def execConnRdReg (k : BitVec 8) (r : Reg) (s : State) : Answer :=
  s.onContext k .none fun c => .ok { conn := c, result := some (.u32 (c.read r)) }

/-- CONN.RDBUF (R259). -/
def execConnRdBuf (k : BitVec 8) (b : BufSel) (s : State) : Answer := s.onContext k .none (connBufferRead s.cfg b)

end Sys2Proof.Machine
end

