-- ==== Sys2Proof/Machine/Bytes.lean ====
section
/-! DEFINITION. Byte sequences and the one byte order of the block (00_scope.md R10, 20_memory.md R63): the
big-endian readers and writers, slices, and replacing two bytes. -/

namespace Sys2Proof.Machine

/-- `B[i]`. Every use is at an index below `len(B)`; past the end the reading is 0 and is never used. -/
def byteAt (B : Bytes) (i : Nat) : Byte := B.getD i 0#8

/-- `be16(B, i)`. -/
def be16 (B : Bytes) (i : Nat) : BitVec 16 := byteAt B i ++ byteAt B (i + 1)

/-- `be32(B, i)`. -/
def be32 (B : Bytes) (i : Nat) : BitVec 32 := be16 B i ++ be16 B (i + 2)

/-- `be48(B, i)`. -/
def be48 (B : Bytes) (i : Nat) : BitVec 48 := be16 B i ++ be32 B (i + 2)

/-- `put8(v)`. -/
def put8 (v : BitVec 8) : Bytes := [v]

/-- `put16(v)`: the high byte first. -/
def put16 (v : BitVec 16) : Bytes := [v.extractLsb' 8 8, v.extractLsb' 0 8]

/-- `put32(v)`. -/
def put32 (v : BitVec 32) : Bytes := put16 (v.extractLsb' 16 16) ++ put16 (v.extractLsb' 0 16)

/-- `put48(v)`. -/
def put48 (v : BitVec 48) : Bytes := put16 (v.extractLsb' 32 16) ++ put32 (v.extractLsb' 0 32)

/-- `zeros(n)`. -/
def zeros (n : Nat) : Bytes := List.replicate n 0#8

/-- `B[i .. j)`, empty when j ≤ i. -/
def slice (B : Bytes) (i j : Nat) : Bytes := (B.drop i).take (j - i)

/-- `B with [i..i+2) := put16(v)`. -/
def patch16 (B : Bytes) (i : Nat) (v : BitVec 16) : Bytes := B.take i ++ put16 v ++ B.drop (i + 2)

end Sys2Proof.Machine
end

