-- ==== Sys2Proof/Machine/Checksum.lean ====
section
/-! DEFINITION. The checksum engine (40_checksum.md): the Internet checksum, the pseudo-header, CSUM and TCSUM. -/

namespace Sys2Proof.Machine

/-- The exact sum `s` of R121: the big-endian 16-bit words, and a last odd byte as the high byte of a word. -/
def wordSum : Bytes → Nat
  | [] => 0
  | [b] => b.toNat * 2 ^ 8
  | a :: b :: rest => (a.toNat * 2 ^ 8 + b.toNat) + wordSum rest

/-- The loop `while s ≥ 2^16: s <- (s mod 2^16) + (s >> 16)` of R121, at most `fuel` times. -/
def foldCarry : Nat → Nat → Nat
  | 0, s => s
  | fuel + 1, s => if s < 2 ^ 16 then s else foldCarry fuel (s % 2 ^ 16 + s / 2 ^ 16)

/-- The Internet checksum `ocsum` of R121. Each fold makes a sum of 2^16 or more smaller, so the sum itself is
fuel enough (`foldCarry_lt` in Laws/Checksum). -/
def ocsum (B : Bytes) : BitVec 16 := BitVec.ofNat 16 (0xFFFF - foldCarry (wordSum B) (wordSum B))

/-- The 12-byte pseudo-header of R123. -/
def pseudoHeader (x : FTcsum) : Bytes :=
  put32 x.srcAddr ++ put32 x.dstAddr ++ [0x00#8] ++ put8 x.proto ++
    put16 (BitVec.ofNat 16 (x.header.length + x.payload.length))

/-- TCSUM's computation (R124). -/
def transportChecksum (x : FTcsum) : Except ErrorKind (BitVec 16) :=
  if x.header.length + x.payload.length > 65535 then .error .tooLarge
  else .ok (ocsum (pseudoHeader x ++ x.header ++ x.payload))

/-- CSUM (R122). -/
def execCsum (s : State) : Answer := s.stateless .bytes fun op => .ok (.u16 (ocsum op.bytes.data))

/-- TCSUM (R124). -/
def execTcsum (s : State) : Answer := s.stateless .tcsum fun op => (transportChecksum op.tcsum).map .u16

end Sys2Proof.Machine
end

