-- ==== Sys2Proof/Machine/Ethernet.lean ====
section
/-! DEFINITION. The Ethernet frame codec (41_ethernet.md; wire layout 30_encoding.md R90). -/

namespace Sys2Proof.Machine

/-- ETH.ENC's image (R141). -/
def ethEncode (x : FEth) : Except ErrorKind Bytes :=
  if x.payload.length > 1500 then .error .tooLarge
  else .ok (put48 x.dst ++ put48 x.src ++ put16 x.etype ++ x.payload)

/-- ETH.DEC's record (R143): every byte after byte 13 is payload, with no upper limit. -/
def ethDecode (B : Bytes) : Except ErrorKind FEth :=
  if B.length < 14 then .error .tooShort
  else .ok { dst := be48 B 0, src := be48 B 6, etype := be16 B 12, payload := slice B 14 B.length }

/-- ETH.ENC (R141). -/
def execEthEnc (s : State) : Answer := s.stateless .eth fun op => (ethEncode op.eth).map .bytes

/-- ETH.DEC (R143). -/
def execEthDec (s : State) : Answer := s.stateless .bytes fun op => (ethDecode op.bytes.data).map .eth

/-- ETH.ISBCAST (R145). -/
def execEthIsBcast (s : State) : Answer := s.stateless .eth fun op => .ok (.u1 (ethIsBroadcast op.eth))

/-- ETH.ISMCAST (R146). -/
def execEthIsMcast (s : State) : Answer := s.stateless .eth fun op => .ok (.u1 (ethIsMulticast op.eth))

end Sys2Proof.Machine
end

