-- ==== Sys2Proof/Machine/Icmp.lean ====
section
/-! DEFINITION. The ICMP packet codec (44_udp_icmp.md part 2; wire layout 30_encoding.md R98). -/

namespace Sys2Proof.Machine

/-- The image of R211 with its checksum field zero. -/
def icmpImage (x : FIcmp) : Bytes :=
  put8 x.itype ++ put8 x.code ++ [0x00#8, 0x00#8] ++ put16 x.id ++ put16 x.seq ++ x.payload

/-- The checksum ICMP.ENC computes, over the whole message (R211). -/
def icmpChecksum (x : FIcmp) : BitVec 16 := ocsum (icmpImage x)

/-- ICMP.ENC's image (R211). The command has no size limit of its own, but an image longer than MAX_OPERAND_BYTES is no
result (20_memory.md R62): that it gives TooLarge is the model's deduction (log entry 9). -/
def icmpEncode (p : Params) (x : FIcmp) : Except ErrorKind Bytes :=
  boundedResult p (patch16 (icmpImage x) 2 (icmpChecksum x))

/-- ICMP.DEC's record (R213). -/
def icmpDecode (B : Bytes) : Except ErrorKind FIcmp :=
  if B.length < 8 then .error .tooShort
  else
    .ok
      { itype := byteAt B 0
        code := byteAt B 1
        checksum := be16 B 2
        id := be16 B 4
        seq := be16 B 6
        payload := slice B 8 B.length }

/-- ICMP.REPLY's record (R217): type, code and checksum 0; identifier, sequence and payload copied. -/
def icmpReplyTo (x : FIcmp) : FIcmp where
  itype := icmpEchoReply
  code := 0#8
  checksum := 0#16
  id := x.id
  seq := x.seq
  payload := x.payload

/-- ICMP.ENC (R211). -/
def execIcmpEnc (s : State) : Answer := s.stateless .icmp fun op => (icmpEncode s.cfg op.icmp).map .bytes

/-- ICMP.DEC (R213). -/
def execIcmpDec (s : State) : Answer := s.stateless .bytes fun op => (icmpDecode op.bytes.data).map .icmp

/-- ICMP.ISREQ (R215). -/
def execIcmpIsReq (s : State) : Answer := s.stateless .icmp fun op => .ok (.u1 (icmpIsRequest op.icmp))

/-- ICMP.ISREP (R216). -/
def execIcmpIsRep (s : State) : Answer := s.stateless .icmp fun op => .ok (.u1 (icmpIsReply op.icmp))

/-- ICMP.REPLY (R217). -/
def execIcmpReply (s : State) : Answer := s.stateless .icmp fun op => .ok (.icmp (icmpReplyTo op.icmp))

end Sys2Proof.Machine
end

