-- ==== Sys2Proof/Machine/Ipv4.lean ====
section
/-! DEFINITION. The IPv4 header codec (42_ipv4.md; wire layout 30_encoding.md R91, R92). -/

namespace Sys2Proof.Machine

/-- The flags and offset word of R92: flags in bits 15:13, offset in bits 12:0. -/
def ipFlagsWord (flags : BitVec 3) (fragOff : BitVec 13) : BitVec 16 := flags ++ fragOff

/-- The 20-byte image of R161 with its checksum field zero. The version nibble is always 4. -/
def ipImage (x : FIp) : Bytes :=
  put8 (4#4 ++ x.ihl) ++ put8 x.tos ++ put16 x.totalLen ++ put16 x.id ++ put16 (ipFlagsWord x.flags x.fragOff) ++
    put8 x.ttl ++ put8 x.proto ++ [0x00#8, 0x00#8] ++ put32 x.src ++ put32 x.dst

/-- The checksum IP.ENC computes (R161). -/
def ipChecksum (x : FIp) : BitVec 16 := ocsum (ipImage x)

/-- IP.ENC's image (R161). -/
def ipEncode (x : FIp) : Bytes := patch16 (ipImage x) 10 (ipChecksum x)

/-- IP.DEC's record (R163): bytes from index 20 on are ignored and nothing is verified. -/
def ipDecode (B : Bytes) : Except ErrorKind FIp :=
  if B.length < 20 then .error .tooShort
  else
    .ok
      { version := (byteAt B 0).extractLsb' 4 4
        ihl := (byteAt B 0).extractLsb' 0 4
        tos := byteAt B 1
        totalLen := be16 B 2
        id := be16 B 4
        flags := (be16 B 6).extractLsb' 13 3
        fragOff := (be16 B 6).extractLsb' 0 13
        ttl := byteAt B 8
        proto := byteAt B 9
        checksum := be16 B 10
        src := be32 B 12
        dst := be32 B 16 }

/-- IP.ENC (R161). -/
def execIpEnc (s : State) : Answer := s.stateless .ip fun op => .ok (.bytes (ipEncode op.ip))

/-- IP.DEC (R163). -/
def execIpDec (s : State) : Answer := s.stateless .bytes fun op => (ipDecode op.bytes.data).map .ip

/-- IP.ISFRAG (R166). -/
def execIpIsFrag (s : State) : Answer := s.stateless .ip fun op => .ok (.u1 (ipIsFragment op.ip))

/-- IP.ISFIRST (R167). -/
def execIpIsFirst (s : State) : Answer := s.stateless .ip fun op => .ok (.u1 (ipIsFirstFragment op.ip))

end Sys2Proof.Machine
end

