-- ==== Sys2Proof/Machine/Tcp.lean ====
section
/-! DEFINITION. The TCP header codec (43_tcp_header.md; wire layout 30_encoding.md R93 to R96). -/

namespace Sys2Proof.Machine

/-- The options of R181 with zeros to the next multiple of 4. -/
def tcpPadded (options : Bytes) : Bytes := options ++ zeros ((4 - options.length % 4) % 4)

/-- The image of R181 with its checksum field zero: `hlen` bytes, the data offset computed, reserved bits 0. -/
def tcpImage (x : FTcp) : Bytes :=
  let opts := tcpPadded x.options
  let hlen := 20 + opts.length
  put16 x.srcPort ++ put16 x.dstPort ++ put32 x.seq ++ put32 x.ack ++
    put8 (BitVec.ofNat 8 (hlen / 4 * 2 ^ 4)) ++ put8 (0#2 ++ x.flags) ++
    put16 x.window ++ [0x00#8, 0x00#8] ++ put16 x.urgent ++ opts

/-- The checksum TCP.ENC computes, over the header image alone (R181). -/
def tcpChecksum (x : FTcp) : BitVec 16 := ocsum (tcpImage x)

/-- TCP.ENC's image (R181). -/
def tcpEncode (x : FTcp) : Except ErrorKind Bytes :=
  if x.options.length > 40 then .error .tooLarge else .ok (patch16 (tcpImage x) 16 (tcpChecksum x))

/-- The options TCP.DEC copies (R184): bytes 20 to `4 * data_off`, when that is past byte 20 and within the input. -/
def tcpOptions (B : Bytes) (dataOff : BitVec 4) : Bytes :=
  let hlen := 4 * dataOff.toNat
  if hlen > 20 ∧ B.length ≥ hlen then slice B 20 hlen else []

/-- TCP.DEC's record (R184): the reserved bits and every byte past the header are discarded. -/
def tcpDecode (B : Bytes) : Except ErrorKind FTcp :=
  if B.length < 20 then .error .tooShort
  else
    .ok
      { srcPort := be16 B 0
        dstPort := be16 B 2
        seq := be32 B 4
        ack := be32 B 8
        dataOff := (be16 B 12).extractLsb' 12 4
        flags := (be16 B 12).extractLsb' 0 6
        window := be16 B 14
        checksum := be16 B 16
        urgent := be16 B 18
        options := tcpOptions B ((be16 B 12).extractLsb' 12 4) }

/-- TCP.ENC (R181). -/
def execTcpEnc (s : State) : Answer := s.stateless .tcp fun op => (tcpEncode op.tcp).map .bytes

/-- TCP.DEC (R184). -/
def execTcpDec (s : State) : Answer := s.stateless .bytes fun op => (tcpDecode op.bytes.data).map .tcp

/-- TCP.HASFLAG (R187). -/
def execTcpHasFlag (m : BitVec 6) (s : State) : Answer := s.stateless .tcp fun op => .ok (.u1 (tcpHasFlags m op.tcp))

end Sys2Proof.Machine
end

