-- ==== Sys2Proof/Machine/Udp.lean ====
section
/-! DEFINITION. The UDP packet codec (44_udp_icmp.md part 1; wire layout 30_encoding.md R97). -/

namespace Sys2Proof.Machine

/-- The image of R201 with its checksum field zero; the length field is computed. -/
def udpImage (x : FUdp) : Bytes :=
  put16 x.srcPort ++ put16 x.dstPort ++ put16 (BitVec.ofNat 16 (8 + x.payload.length)) ++ [0x00#8, 0x00#8] ++ x.payload

/-- What the checksum covers, by UDP_CSUM_SCOPE (R201). -/
def udpCovered (scope : CsumScope) (B : Bytes) : Bytes :=
  match scope with
  | .hdrPayload => B
  | .hdrOnly => slice B 0 8

/-- The checksum UDP.ENC computes (R201): no pseudo-header. -/
def udpChecksum (scope : CsumScope) (x : FUdp) : BitVec 16 := ocsum (udpCovered scope (udpImage x))

/-- UDP.ENC's image (R201). -/
def udpEncode (scope : CsumScope) (x : FUdp) : Except ErrorKind Bytes :=
  if 8 + x.payload.length > 65535 then .error .tooLarge else .ok (patch16 (udpImage x) 6 (udpChecksum scope x))

/-- UDP.DEC's record (R203): every byte after byte 7 is payload, whatever the length field says. -/
def udpDecode (B : Bytes) : Except ErrorKind FUdp :=
  if B.length < 8 then .error .tooShort
  else
    .ok
      { srcPort := be16 B 0
        dstPort := be16 B 2
        length := be16 B 4
        checksum := be16 B 6
        payload := slice B 8 B.length }

/-- UDP.ENC (R201). -/
def execUdpEnc (s : State) : Answer := s.stateless .udp fun op => (udpEncode s.cfg.udpCsumScope op.udp).map .bytes

/-- UDP.DEC (R203). -/
def execUdpDec (s : State) : Answer := s.stateless .bytes fun op => (udpDecode op.bytes.data).map .udp

end Sys2Proof.Machine
end

