-- ==== Sys2Proof/Machine/Dispatch.lean ====
section
/-! DEFINITION. The dispatch: one arm per command, in the order of 30_encoding.md R84. -/

namespace Sys2Proof.Machine

def exec (i : Instr) (s : State) : Host.Outcome State Fault Refusal :=
  match i with
  | .csum => Sys2Proof.Machine.execCsum s
  | .tcsum => Sys2Proof.Machine.execTcsum s
  | .ethEnc => Sys2Proof.Machine.execEthEnc s
  | .ethDec => Sys2Proof.Machine.execEthDec s
  | .ethIsBcast => Sys2Proof.Machine.execEthIsBcast s
  | .ethIsMcast => Sys2Proof.Machine.execEthIsMcast s
  | .ipEnc => Sys2Proof.Machine.execIpEnc s
  | .ipDec => Sys2Proof.Machine.execIpDec s
  | .ipIsFrag => Sys2Proof.Machine.execIpIsFrag s
  | .ipIsFirst => Sys2Proof.Machine.execIpIsFirst s
  | .tcpEnc => Sys2Proof.Machine.execTcpEnc s
  | .tcpDec => Sys2Proof.Machine.execTcpDec s
  | .tcpHasFlag m => Sys2Proof.Machine.execTcpHasFlag m s
  | .udpEnc => Sys2Proof.Machine.execUdpEnc s
  | .udpDec => Sys2Proof.Machine.execUdpDec s
  | .icmpEnc => Sys2Proof.Machine.execIcmpEnc s
  | .icmpDec => Sys2Proof.Machine.execIcmpDec s
  | .icmpIsReq => Sys2Proof.Machine.execIcmpIsReq s
  | .icmpIsRep => Sys2Proof.Machine.execIcmpIsRep s
  | .icmpReply => Sys2Proof.Machine.execIcmpReply s
  | .connCreate k => Sys2Proof.Machine.execConnCreate k s
  | .connConnect k => Sys2Proof.Machine.execConnConnect k s
  | .connListen k => Sys2Proof.Machine.execConnListen k s
  | .connSend k => Sys2Proof.Machine.execConnSend k s
  | .connRecv k => Sys2Proof.Machine.execConnRecv k s
  | .connClose k => Sys2Proof.Machine.execConnClose k s
  | .connSetCb k e => Sys2Proof.Machine.execConnSetCb k e s
  | .connRdReg k r => Sys2Proof.Machine.execConnRdReg k r s
  | .connRdBuf k b => Sys2Proof.Machine.execConnRdBuf k b s

end Sys2Proof.Machine
end

