-- ==== Sys2Proof/Machine/Port.lean ====
section
/-! DEFINITION. The command port: accepting the next command and performing it (00_scope.md R3, 20_memory.md R71), and
what the host does at the port between steps (log entry 7). -/

namespace Sys2Proof.Machine

/-- Accept a command: it leaves the queue of presented commands and its operand record becomes `op`. -/
def State.accept (s : State) (c : Command) (rest : List Command) : State := { s with pending := rest, op := c.op }

/-- Perform an accepted command of word `w`: a word the decoder rejects is Illegal, before its operand record is read
(30_encoding.md R85); every other word is its command. -/
def State.perform (s : State) (w : Word) : Answer :=
  match decode w with
  | .error _ => s.raise .illegal
  | .ok i => exec i s

/-- Where no command is presented, nothing happens: the block does nothing on its own (10_state.md R33). -/
def State.performNext (s : State) : Answer :=
  match s.pending with
  | [] => .next s
  | c :: rest => (s.accept c rest).perform c.word

/-- Present a command ahead of every command presented so far. -/
def State.present (s : State) (c : Command) : State := { s with pending := c :: s.pending }

/-- The host presents a command, to be performed after those presented so far (R71). -/
def State.offer (s : State) (c : Command) : State := { s with pending := s.pending ++ [c] }

/-- The host takes the oldest response, if there is one (70_reset_and_hazards.md R300). -/
def State.takeResponse (s : State) : Option (Response × State) :=
  match s.responses with
  | [] => none
  | r :: rest => some (r, { s with responses := rest })

end Sys2Proof.Machine
end

