-- ==== Sys2Proof/Machine/Step.lean ====
section
/-! DEFINITION. One step of the block: one command, performed whole (20_memory.md R66). -/

namespace Sys2Proof.Machine

/-- One step: perform the oldest command the host has presented, and return its one response. -/
def step (s : State) : Host.Outcome State Fault Refusal := s.performNext

/-- `s` with the command of word `w` presented, to be performed by the next step. The block fetches nothing
(20_memory.md R75): presenting a command is what the host does. Its operand record has every field 0 or empty, as
30_encoding.md R101 gives an omitted field. -/
def State.withFetchWord (s : State) (nbits w : Nat) : State :=
  s.present { word := BitVec.ofNat 32 (w % 2 ^ nbits), op := {} }

end Sys2Proof.Machine
end

