-- ==== Sys2Proof/Safety.lean ====
section
/-! DEFINITION. The terms claims are stated in: what a well-formed response is, what holds of every context between
commands, the machine's invariant, the illegal command words of 30_encoding.md R85 written as numbers, and the two
ways a context-free command ends. -/

namespace Sys2Proof.Machine

/-- A response as 30_encoding.md R83, 60_exceptions.md R272, R276, R278 and 20_memory.md R62 allow it. -/
structure Response.WellFormed (p : Params) (r : Response) : Prop where
  /-- When the status is not OK there is no result and no notification. -/
  error : r.status ≠ .ok → r.result = none ∧ r.notes = []
  /-- There is at most one notification. -/
  notes : r.notes.length ≤ 1
  /-- A state change names ESTABLISHED, LISTEN or FIN_WAIT_1. -/
  state : ∀ x, Notification.stateChange x ∈ r.notes → x = 4#4 ∨ x = 1#4 ∨ x = 5#4
  /-- No byte sequence of the result is longer than MAX_OPERAND_BYTES. -/
  result : ∀ v, r.result = some v → ∀ B ∈ v.byteFields, B.length ≤ p.maxOperandBytes
  /-- No received data is longer than MAX_OPERAND_BYTES. -/
  data : ∀ B, Notification.dataReceived B ∈ r.notes → B.length ≤ p.maxOperandBytes

/-- What holds of a context between commands: STATE is CLOSED, LISTEN or ESTABLISHED (10_state.md R28), the window and
congestion registers hold their creation values (R30), and neither buffer passes CONN_BUF_CAP (R31). -/
structure Conn.Stable (p : Params) (c : Conn) : Prop where
  state : c.state = .closed ∨ c.state = .listen ∨ c.state = .established
  sndWnd : c.sndWnd = p.initSndWnd
  rcvWnd : c.rcvWnd = p.initRcvWnd
  cwnd : c.cwnd = p.initCwnd
  ssthresh : c.ssthresh = p.initSsthresh
  sndBuf : ∀ cap, p.connBufCap = some cap → c.sndBuf.length ≤ cap
  rcvBuf : ∀ cap, p.connBufCap = some cap → c.rcvBuf.length ≤ cap

/-- The invariant of the block: 1 ≤ N_CONN ≤ 256 (00_scope.md R7), every context stable, every response well formed. -/
structure State.Inv (s : State) : Prop where
  nConn_pos : 1 ≤ s.nConn
  nConn_le : s.nConn ≤ 256
  conns : ∀ c ∈ s.conns, c.Stable s.cfg
  responses : ∀ r ∈ s.responses, r.WellFormed s.cfg

/-- Command `i` at `s` completes with result `r` and no notification, and nothing else of the state changes. -/
def State.Returns (s : State) (i : Instr) (r : Result) : Prop :=
  exec i s = .next { s with responses := s.responses ++ [{ status := .ok, result := some r, notes := [] }] }

/-- Command `i` at `s` ends in the error `e`, with no result and no notification, and nothing else of the state
changes (60_exceptions.md R272). -/
def State.Fails (s : State) (i : Instr) (e : ErrorKind) : Prop :=
  exec i s = .next { s with responses := s.responses ++ [{ status := .error e, result := none, notes := [] }] }

/-- Two operand records agree on the record of format `f` (30_encoding.md R82). -/
def OperandRecord.Agree (f : Format) (a b : OperandRecord) : Prop :=
  match f with
  | .none => True
  | .bytes => a.bytes = b.bytes
  | .tcsum => a.tcsum = b.tcsum
  | .eth => a.eth = b.eth
  | .ip => a.ip = b.ip
  | .tcp => a.tcp = b.tcp
  | .udp => a.udp = b.udp
  | .icmp => a.icmp = b.icmp
  | .create => a.create = b.create

end Sys2Proof.Machine

namespace Sys2Proof

/-- The OP values of 30_encoding.md R84, as numbers. -/
def opNumbers : List Nat :=
  [0x01, 0x02, 0x10, 0x11, 0x12, 0x13, 0x20, 0x21, 0x22, 0x23, 0x30, 0x31, 0x32, 0x40, 0x41, 0x50, 0x51, 0x52,
   0x53, 0x54] ++ [0x60, 0x61, 0x62, 0x63, 0x64, 0x65, 0x66, 0x67, 0x68]

/-- One more than the largest ARG an opcode admits (30_encoding.md R87): its ARG field holds the low bits of ARG, so a
bit outside the field is set exactly when ARG reaches this. -/
def argLimit (op : Nat) : Nat :=
  if op = 0x32 then 64 else if op = 0x66 then 4 else if op = 0x67 then 256 else if op = 0x68 then 2 else 1

/-- The illegal command words of a block of `nConn` contexts: the six cases of 30_encoding.md R85, in its order, on the
fields of R80 as numbers. -/
def IllegalWord (nConn : Nat) (w : Word) : Prop :=
  let op := w.toNat % 2 ^ 8
  let arg := w.toNat / 2 ^ 8 % 2 ^ 8
  let ctx := w.toNat / 2 ^ 16 % 2 ^ 8
  let rsv := w.toNat / 2 ^ 24
  op ∉ opNumbers ∨ rsv ≠ 0 ∨ (op < 0x60 ∧ ctx ≠ 0) ∨ (0x60 ≤ op ∧ nConn ≤ ctx) ∨ argLimit op ≤ arg ∨
    (op = 0x67 ∧ 14 ≤ arg)

end Sys2Proof
end

