-- ==== Sys2Proof/Certificates/Slice0/Obligations.lean ====
section
/-! DEFINITION. The statements about the model, one definition each; OBLIGATIONS.json lists them. Most speak of every
state `s`: every content of every context, every parameter value and every number of contexts. -/

open Sys2Proof Sys2Proof.Machine

/-! ## Command words -/

/-- Decoding the word of any command gives that command back, with every field at every value (R80, R84, R87, R88). -/
def Obligations.DecodeEncodeRoundTrip : Prop :=
  ∀ i : Instr, decode (encode i) = .ok i

/-- A word that decodes is the word of the command it decodes to: no two words share a command (R80, R84). -/
def Obligations.EncodeDecodeRoundTrip : Prop :=
  ∀ (w : Word) (i : Instr), decode w = .ok i → encode i = w

/-- A word decodes to a command the block has exactly when no case of R85 holds of it. -/
def Obligations.LegalWordsAreCommands : Prop :=
  ∀ (nConn : Nat) (w : Word),
    (∃ i, decode w = .ok i ∧ i.wellFormed nConn = true) ↔ ¬ IllegalWord nConn w

/-- R85: an illegal command word, whatever operand record comes with it, is answered with Illegal, and nothing is
written: only the command leaves the port and its response is added. -/
def Obligations.IllegalWordsAnswerIllegal : Prop :=
  ∀ (s : State) (c : Command) (rest : List Command),
    s.pending = c :: rest → IllegalWord s.nConn c.word →
      ∃ t, step s = .next t ∧
        t.responses = s.responses ++ [{ status := .error .illegal, result := none, notes := [] }] ∧
        t.conns = s.conns ∧ t.cfg = s.cfg ∧ t.draws = s.draws ∧ t.pending = rest

/-- Words written out from the encoding tables decode to the commands they stand for, one per family (R84, R87). -/
def Obligations.SpecWordsDecode : Prop :=
  decode 0x00000001#32 = .ok .csum ∧
  decode 0x00000012#32 = .ok .ethIsBcast ∧
  decode 0x00000020#32 = .ok .ipEnc ∧
  decode 0x00001232#32 = .ok (.tcpHasFlag 0x12#6) ∧
  decode 0x00000040#32 = .ok .udpEnc ∧
  decode 0x00000054#32 = .ok .icmpReply ∧
  decode 0x00050061#32 = .ok (.connConnect 5#8) ∧
  decode 0x00000366#32 = .ok (.connSetCb 0#8 3#2) ∧
  decode 0x00000267#32 = .ok (.connRdReg 0#8 .rcvSeq) ∧
  decode 0x00000168#32 = .ok (.connRdBuf 0#8 .rcv)

/-! ## Steps -/

/-- One step performs the oldest presented command: when its word decodes to `i`, the step is `exec i` at the state in
which the command has left the port and its operand record is `op` (R3, R71). -/
def Obligations.StepRunsDecodedCommand : Prop :=
  ∀ (s : State) (c : Command) (rest : List Command) (i : Instr),
    s.pending = c :: rest → decode c.word = .ok i →
      step s = exec i { s with pending := rest, op := c.op }

/-- Where no command is presented nothing changes: the block does nothing on its own (R33; the model's choice of an idle
step, log entry 5). -/
def Obligations.IdleStepChangesNothing : Prop :=
  ∀ s : State, s.pending = [] → step s = .next s

/-- Every command completes and returns exactly one response, after the responses before it (R74, R83). -/
def Obligations.EveryCommandCompletes : Prop :=
  (∀ (i : Instr) (s : State), ∃ t r, exec i s = .next t ∧ t.responses = s.responses ++ [r] ∧ t.pending = s.pending) ∧
  (∀ (s : State) (c : Command) (rest : List Command), s.pending = c :: rest →
    ∃ t r, step s = .next t ∧ t.pending = rest ∧ t.responses = s.responses ++ [r])

/-! ## Codes -/

/-- The status codes of R83, the state codes of R27 and the register numbers of R26. -/
def Obligations.CodesOfStatusStateAndRegister : Prop :=
  Status.code .ok = 0 ∧ Status.code (.error .tooShort) = 1 ∧ Status.code (.error .tooLarge) = 2 ∧
  Status.code (.error .invalidState) = 3 ∧ Status.code (.error .illegal) = 4 ∧
  [TcpState.closed, .listen, .synSent, .synReceived, .established, .finWait1, .finWait2, .closeWait, .closing,
    .lastAck, .timeWait].map (fun x => (TcpState.code x).toNat) = List.range 11 ∧
  [Reg.state, .sndSeq, .rcvSeq, .sndWnd, .rcvWnd, .cwnd, .ssthresh, .sndBufLen, .rcvBufLen, .localAddr, .localPort,
    .remoteAddr, .remotePort, .cbEn].map (fun x => (Reg.number x).toNat) = List.range 14

/-! ## Reset and the invariant -/

/-- R300, R32: a hardware reset puts every context at its creation values, with the addresses and ports 0, and discards
the responses not yet taken. That it also discards the commands presented but not yet performed, of which R300 says
nothing, is the model's choice (log entry 20). `resetWith p n` is the block with parameters p and n contexts just after
reset; the contexts hardware reset leaves are the same. -/
def Obligations.ResetPutsEveryContextAtCreation : Prop :=
  (∀ (p : Params) (n k : Nat), k < n →
    (State.resetWith p n).conns[k]? =
      some
        { state := .closed, sndSeq := p.initSndSeq, rcvSeq := p.initRcvSeq, sndWnd := p.initSndWnd,
          rcvWnd := p.initRcvWnd, cwnd := p.initCwnd, ssthresh := p.initSsthresh, sndBuf := [], rcvBuf := [],
          localAddr := 0, localPort := 0, remoteAddr := 0, remotePort := 0, cbEn := 0 }) ∧
  (∀ (p : Params) (n : Nat),
    (State.resetWith p n).nConn = n ∧ (State.resetWith p n).pending = [] ∧ (State.resetWith p n).responses = [] ∧
      (State.resetWith p n).cfg = p) ∧
  (∀ s : State,
    s.hardwareReset.conns = (State.resetWith s.cfg s.nConn).conns ∧ s.hardwareReset.pending = [] ∧
      s.hardwareReset.responses = [] ∧ s.hardwareReset.cfg = s.cfg)

/-- R36: the state a hardware reset gives a context is exactly the one CONN.CREATE with all-zero operands produces. -/
def Obligations.ResetIsCreateWithZeros : Prop :=
  ∀ (s : State) (k : BitVec 8), k.toNat < s.nConn →
    s.op.create = { localAddr := 0, localPort := 0, remoteAddr := 0, remotePort := 0 } →
    ∃ t, exec (.connCreate k) s = .next t ∧ t.conn? k = s.hardwareReset.conn? k ∧ (t.conn? k).isSome = true

/-- The invariant holds right after reset, for every parameter value and every number of contexts R7 allows, and at
`State.reset`. -/
def Obligations.ResetMeetsInvariant : Prop :=
  (∀ (p : Params) (n : Nat), 1 ≤ n → n ≤ 256 → (State.resetWith p n).Inv) ∧ State.reset.Inv

/-- Every step keeps the invariant: the number of contexts, STATE in {CLOSED, LISTEN, ESTABLISHED} (R28), the window and
congestion registers at their creation values (R30), the buffers within CONN_BUF_CAP (R31), every response well formed
(R83, R272, R276, R278), with no byte sequence of a result or of received data longer than MAX_OPERAND_BYTES (R62). -/
def Obligations.StepKeepsInvariant : Prop :=
  ∀ s t : State, s.Inv → step s = .next t → t.Inv

/-- No step changes a parameter or the number of contexts (R7, R25). -/
def Obligations.StepKeepsParameters : Prop :=
  ∀ s t : State, step s = .next t → t.cfg = s.cfg ∧ t.nConn = s.nConn

/-! ## Rules of the whole machine -/

/-- R272: a command whose response reports an error returns no result and no notification and changes nothing else. -/
def Obligations.ErrorChangesNothing : Prop :=
  ∀ (i : Instr) (s t : State) (r : Response),
    exec i s = .next t → t.responses = s.responses ++ [r] → r.status ≠ .ok →
      r.result = none ∧ r.notes = [] ∧ t = { s with responses := s.responses ++ [r] }

/-- R33: no context changes except by a command addressed to it. A step that changes what context k holds performed a
command whose CTX is k. -/
def Obligations.OnlyAddressedContextChanges : Prop :=
  ∀ (s t : State) (k : BitVec 8), step s = .next t → t.conn? k ≠ s.conn? k →
    ∃ c rest i, s.pending = c :: rest ∧ decode c.word = .ok i ∧ i.context? = some k

/-- R20: a context-free command is a pure function from its operand record to its response. At two states with the same
operand record (and the same parameters) it returns the same response and changes nothing else. -/
def Obligations.ContextFreeCommandsArePure : Prop :=
  ∀ (i : Instr) (s u : State), i.context? = none → s.op = u.op → s.cfg = u.cfg →
    ∃ r, exec i s = .next { s with responses := s.responses ++ [r] } ∧
      exec i u = .next { u with responses := u.responses ++ [r] }

/-- A CONN.* command depends on no context but its own (R25, R285): at two states that agree on context k, the operand
record, the parameters and the draw, it returns the same response and leaves context k the same. -/
def Obligations.ContextCommandsReadOnlyTheirContext : Prop :=
  ∀ (i : Instr) (k : BitVec 8) (s u t v : State), i.context? = some k → s.conn? k = u.conn? k → s.op = u.op →
    s.cfg = u.cfg → s.draws = u.draws → exec i s = .next t → exec i u = .next v →
      t.conn? k = v.conn? k ∧ ∃ r, t.responses = s.responses ++ [r] ∧ v.responses = u.responses ++ [r]

/-- A command reads the operand record of its own format only (R82; the model's command port, log entry 4): changing the
records of other formats changes no response and no context. -/
def Obligations.OtherFormatsAreNotRead : Prop :=
  ∀ (i : Instr) (s t : State) (op' : OperandRecord), OperandRecord.Agree i.format s.op op' → exec i s = .next t →
    exec i { s with op := op' } = .next { t with op := op' }

/-- A Bytes field of the command's operand record longer than MAX_OPERAND_BYTES gives TooLarge, before every check of
the command's own (R62, R271, R273). -/
def Obligations.OversizedOperandIsTooLarge : Prop :=
  ∀ (i : Instr) (s : State) (B : Bytes), i.wellFormed s.nConn = true → B ∈ s.op.byteFields i.format →
    s.cfg.maxOperandBytes < B.length → s.Fails i .tooLarge

/-- The "written by" column of R26: a register or buffer of context k differs after a command only where the command is
one of those the table names for it. -/
def Obligations.RegisterWriters : Prop :=
  ∀ (i : Instr) (s t : State) (k : BitVec 8) (c d : Conn),
    exec i s = .next t → s.conn? k = some c → t.conn? k = some d →
      (d.state ≠ c.state → i ∈ [.connCreate k, .connConnect k, .connListen k, .connClose k]) ∧
      (d.sndSeq ≠ c.sndSeq → i ∈ [.connCreate k, .connConnect k, .connSend k]) ∧
      (d.rcvSeq ≠ c.rcvSeq → i ∈ [.connCreate k, .connConnect k, .connRecv k]) ∧
      (d.sndWnd ≠ c.sndWnd ∨ d.rcvWnd ≠ c.rcvWnd ∨ d.cwnd ≠ c.cwnd ∨ d.ssthresh ≠ c.ssthresh ∨
        d.localAddr ≠ c.localAddr ∨ d.localPort ≠ c.localPort ∨ d.remoteAddr ≠ c.remoteAddr ∨
        d.remotePort ≠ c.remotePort → i = .connCreate k) ∧
      (d.cbEn ≠ c.cbEn → i = .connCreate k ∨ ∃ e, i = .connSetCb k e) ∧
      (d.sndBuf ≠ c.sndBuf → i ∈ [.connCreate k, .connSend k]) ∧
      (d.rcvBuf ≠ c.rcvBuf → i ∈ [.connCreate k, .connRecv k])

/-- R31: no command but CONN.CREATE removes bytes from a buffer. -/
def Obligations.BuffersOnlyGrow : Prop :=
  ∀ (i : Instr) (s t : State) (k : BitVec 8) (c d : Conn),
    exec i s = .next t → s.conn? k = some c → t.conn? k = some d → i ≠ .connCreate k →
      c.sndBuf <+: d.sndBuf ∧ c.rcvBuf <+: d.rcvBuf

/-- R275 to R278: a response carries at most one notification; a StateChange comes from CONN.CONNECT with 4, CONN.LISTEN
with 1 or CONN.CLOSE (not as a no-op) with 5, where CB_EN[0] was 1, and DataReceived from CONN.RECV with its operand,
where CB_EN[1] was 1. -/
def Obligations.NotificationSources : Prop :=
  ∀ (i : Instr) (s t : State) (r : Response), exec i s = .next t → t.responses = s.responses ++ [r] →
    r.notes.length ≤ 1 ∧
    (∀ x, Notification.stateChange x ∈ r.notes →
      ∃ k c, s.conn? k = some c ∧ c.cbEn.getLsbD 0 = true ∧
        ((i = .connConnect k ∧ x = 4#4) ∨ (i = .connListen k ∧ x = 1#4) ∨
          (i = .connClose k ∧ x = 5#4 ∧ c.state ≠ .closed))) ∧
    (∀ x, Notification.dataReceived x ∈ r.notes →
      ∃ k c, s.conn? k = some c ∧ c.cbEn.getLsbD 1 = true ∧ i = .connRecv k ∧ x = s.op.bytes.data)

/-- The STATE column of the transition table R262: the state each CONN.* command leaves from each state held between
commands. -/
def Obligations.TransitionTable : Prop :=
  ∀ (i : Instr) (s t : State) (k : BitVec 8) (c d : Conn),
    c.state = .closed ∨ c.state = .listen ∨ c.state = .established →
    i.context? = some k → exec i s = .next t → s.conn? k = some c → t.conn? k = some d →
      (i = .connCreate k → d.state = .closed) ∧
      (i = .connConnect k → c.state = .closed → d.state = .established) ∧
      (i = .connConnect k → c.state ≠ .closed → d.state = c.state) ∧
      (i = .connListen k → d.state = .listen) ∧
      (i = .connClose k → d.state = .closed) ∧
      (i ∉ [.connCreate k, .connConnect k, .connListen k, .connClose k] → d.state = c.state)

/-! ## Checksum engine -/

/-- R122: CSUM returns `ocsum` of its operand; an empty or all-zero operand gives 0xFFFF and a single byte b gives
0xFFFF − b * 2^8. -/
def Obligations.CsumResult : Prop :=
  ∀ s : State, s.op.bytes.data.length ≤ s.cfg.maxOperandBytes →
    s.Returns .csum (.u16 (ocsum s.op.bytes.data)) ∧
    ((∀ b ∈ s.op.bytes.data, b = 0#8) → s.Returns .csum (.u16 0xFFFF#16)) ∧
    (∀ b : Byte, s.op.bytes.data = [b] → s.Returns .csum (.u16 (BitVec.ofNat 16 (0xFFFF - b.toNat * 2 ^ 8))))

/-- R121 in closed form: with S the sum of the big-endian words (an odd last byte as a high byte), the carries folded
around give 0 for S = 0 and else the number of 1 to 0xFFFF that is S modulo 0xFFFF, and `ocsum` is its complement. -/
def Obligations.OcsumIsEndAroundSum : Prop :=
  ∀ B : Bytes,
    let S := ∑ j ∈ Finset.range ((B.length + 1) / 2), ((byteAt B (2 * j)).toNat * 2 ^ 8 + (byteAt B (2 * j + 1)).toNat)
    (ocsum B).toNat = 0xFFFF - (if S = 0 then 0 else (S - 1) % 0xFFFF + 1)

/-- R126(a): permuting the 16-bit words of an even-length front part does not change `ocsum`, whatever follows. -/
def Obligations.OcsumWordOrder : Prop :=
  ∀ (ws vs : List (Byte × Byte)) (rest : Bytes), ws.Perm vs →
    ocsum (ws.flatMap (fun w => [w.1, w.2]) ++ rest) = ocsum (vs.flatMap (fun w => [w.1, w.2]) ++ rest)

/-- R126(b), the receiver check: an image whose 16-bit checksum field at an even offset holds `ocsum` of the image with
that field zeroed has `ocsum` 0x0000. -/
def Obligations.ReceiverCheckFoldsToZero : Prop :=
  ∀ (B : Bytes) (j : Nat), j % 2 = 0 → j + 2 ≤ B.length →
    ocsum (patch16 B j (ocsum (patch16 B j 0#16))) = 0x0000#16

/-- R126(c): `ocsum` returns 0xFFFF exactly for an input of zero bytes only (or none). -/
def Obligations.OcsumAllOnesOnlyForZeros : Prop :=
  ∀ B : Bytes, ocsum B = 0xFFFF#16 ↔ ∀ b ∈ B, b = 0#8

/-- R126(d): swapping the two bytes of every word byte-swaps the result. -/
def Obligations.OcsumByteSwap : Prop :=
  ∀ ws : List (Byte × Byte),
    ocsum (ws.flatMap fun w => [w.2, w.1]) =
      (ocsum (ws.flatMap fun w => [w.1, w.2])).extractLsb' 0 8 ++ (ocsum (ws.flatMap fun w => [w.1, w.2])).extractLsb' 8 8

/-- R123, R124: TCSUM sums the 12-byte pseudo-header (source address, destination address, 0, protocol, length of header
plus payload), the header and the payload; a header and payload of more than 65535 bytes together are TooLarge. -/
def Obligations.TcsumResult : Prop :=
  ∀ s : State, s.op.tcsum.header.length ≤ s.cfg.maxOperandBytes → s.op.tcsum.payload.length ≤ s.cfg.maxOperandBytes →
    let x := s.op.tcsum
    let L := x.header.length + x.payload.length
    (L ≤ 65535 →
      ∃ PH : Bytes, PH.length = 12 ∧ be32 PH 0 = x.srcAddr ∧ be32 PH 4 = x.dstAddr ∧ byteAt PH 8 = 0#8 ∧
        byteAt PH 9 = x.proto ∧ (be16 PH 10).toNat = L ∧
          s.Returns .tcsum (.u16 (ocsum (PH ++ x.header ++ x.payload)))) ∧
    (65535 < L → s.Fails .tcsum .tooLarge)

/-- The host's procedure of R125: TCSUM over a header with its checksum field (at an even offset) zeroed, the result put
into that field, and TCSUM again: the second result is 0x0000. -/
def Obligations.TcsumVerifiesWrittenChecksum : Prop :=
  ∀ (s u : State) (j : Nat) (c : BitVec 16), j % 2 = 0 → j + 2 ≤ s.op.tcsum.header.length →
    be16 s.op.tcsum.header j = 0#16 → s.Returns .tcsum (.u16 c) → u.cfg = s.cfg →
      u.op.tcsum = { s.op.tcsum with header := patch16 s.op.tcsum.header j c } → u.Returns .tcsum (.u16 0x0000#16)

/-! ## Ethernet -/

/-- R141: ETH.ENC of a payload of at most 1500 bytes returns destination, source, type and payload as one image; of a
longer payload it is TooLarge. -/
def Obligations.EthEncImage : Prop :=
  ∀ s : State,
    let x := s.op.eth
    (x.payload.length ≤ 1500 →
      ∃ B : Bytes, s.Returns .ethEnc (.bytes B) ∧ B.length = 14 + x.payload.length ∧ be48 B 0 = x.dst ∧
        be48 B 6 = x.src ∧ be16 B 12 = x.etype ∧ B.drop 14 = x.payload) ∧
    (1500 < x.payload.length → s.Fails .ethEnc .tooLarge)

/-- R143: ETH.DEC returns the fields at their offsets and every byte after byte 13 as payload, with no upper limit; fewer
than 14 bytes are TooShort. -/
def Obligations.EthDecRecord : Prop :=
  ∀ s : State, s.op.bytes.data.length ≤ s.cfg.maxOperandBytes →
    let B := s.op.bytes.data
    (14 ≤ B.length →
      s.Returns .ethDec (.eth { dst := be48 B 0, src := be48 B 6, etype := be16 B 12, payload := B.drop 14 })) ∧
    (B.length < 14 → s.Fails .ethDec .tooShort)

/-- R144: decoding what ETH.ENC returned gives the record back, and encoding what ETH.DEC returned for 14 to 1514 bytes
gives the bytes back. -/
def Obligations.EthRoundTrip : Prop :=
  (∀ (s u : State) (B : Bytes), s.Returns .ethEnc (.bytes B) → u.op.bytes.data = B → u.Returns .ethDec (.eth s.op.eth)) ∧
  (∀ (s u : State) (x : FEth), s.op.bytes.data.length ≤ 1514 → s.Returns .ethDec (.eth x) → u.op.eth = x →
    u.Returns .ethEnc (.bytes s.op.bytes.data))

/-- R145, R146: ETH.ISBCAST is 1 exactly for the all-ones destination; ETH.ISMCAST is bit 40 of the destination. -/
def Obligations.EthPredicates : Prop :=
  ∀ s : State, s.op.eth.payload.length ≤ s.cfg.maxOperandBytes →
    s.Returns .ethIsBcast (.u1 (if s.op.eth.dst.toNat = 2 ^ 48 - 1 then 1 else 0)) ∧
    s.Returns .ethIsMcast (.u1 (BitVec.ofNat 1 (s.op.eth.dst.toNat / 2 ^ 40)))

/-! ## IPv4 -/

/-- R161, R162: IP.ENC always returns a 20-byte image: version nibble 4, every other field as given at its offset, the
checksum field `ocsum` of the image with that field zero; `ocsum` of the image is 0x0000. -/
def Obligations.IpEncImage : Prop :=
  ∀ s : State,
    let x := s.op.ip
    ∃ B : Bytes, s.Returns .ipEnc (.bytes B) ∧ B.length = 20 ∧
      (byteAt B 0).toNat = 4 * 2 ^ 4 + x.ihl.toNat ∧ byteAt B 1 = x.tos ∧ be16 B 2 = x.totalLen ∧ be16 B 4 = x.id ∧
      (be16 B 6).toNat = x.flags.toNat * 2 ^ 13 + x.fragOff.toNat ∧ byteAt B 8 = x.ttl ∧ byteAt B 9 = x.proto ∧
      be16 B 10 = ocsum (patch16 B 10 0#16) ∧ be32 B 12 = x.src ∧ be32 B 16 = x.dst ∧ ocsum B = 0x0000#16

/-- R163: IP.DEC returns the fields at their offsets, reads nothing past byte 19 and verifies nothing; fewer than 20
bytes are TooShort. -/
def Obligations.IpDecRecord : Prop :=
  ∀ s : State, s.op.bytes.data.length ≤ s.cfg.maxOperandBytes →
    let B := s.op.bytes.data
    (20 ≤ B.length →
      s.Returns .ipDec
        (.ip
          { version := BitVec.ofNat 4 ((byteAt B 0).toNat / 2 ^ 4), ihl := BitVec.ofNat 4 (byteAt B 0).toNat,
            tos := byteAt B 1, totalLen := be16 B 2, id := be16 B 4,
            flags := BitVec.ofNat 3 ((be16 B 6).toNat / 2 ^ 13), fragOff := BitVec.ofNat 13 (be16 B 6).toNat,
            ttl := byteAt B 8, proto := byteAt B 9, checksum := be16 B 10, src := be32 B 12, dst := be32 B 16 })) ∧
    (B.length < 20 → s.Fails .ipDec .tooShort)

/-- R164: decoding what IP.ENC returned for any record gives it back with version 4 and the computed checksum, so a
record that already holds those comes back as it was. -/
def Obligations.IpRoundTrip : Prop :=
  ∀ (s u : State) (B : Bytes), s.Returns .ipEnc (.bytes B) → u.op.bytes.data = B →
    u.Returns .ipDec (.ip { s.op.ip with version := 4, checksum := be16 B 10 })

/-- R166, R167: IP.ISFRAG is 1 exactly when MF (flags bit 0) is 1 or the offset is not 0; IP.ISFIRST is 1 exactly when the
offset is 0. -/
def Obligations.IpPredicates : Prop :=
  ∀ s : State,
    s.Returns .ipIsFrag (.u1 (if s.op.ip.flags.toNat % 2 = 1 ∨ s.op.ip.fragOff.toNat ≠ 0 then 1 else 0)) ∧
    s.Returns .ipIsFirst (.u1 (if s.op.ip.fragOff.toNat = 0 then 1 else 0))

/-! ## TCP header -/

/-- R181, R182: TCP.ENC of at most 40 bytes of options returns the header image, the options zero-padded to a multiple of
4, the data offset a quarter of the image's length, reserved bits 0, the checksum `ocsum` of the image with that field
zero; `ocsum` of the image is 0x0000. More than 40 bytes of options are TooLarge. -/
def Obligations.TcpEncImage : Prop :=
  ∀ s : State,
    let x := s.op.tcp
    (x.options.length ≤ 40 →
      ∃ (B : Bytes) (pad : Nat), s.Returns .tcpEnc (.bytes B) ∧ pad < 4 ∧ (x.options.length + pad) % 4 = 0 ∧
        B.drop 20 = x.options ++ List.replicate pad 0#8 ∧ B.length = 20 + x.options.length + pad ∧
        be16 B 0 = x.srcPort ∧ be16 B 2 = x.dstPort ∧ be32 B 4 = x.seq ∧ be32 B 8 = x.ack ∧
        (byteAt B 12).toNat = B.length / 4 * 2 ^ 4 ∧ (byteAt B 13).toNat = x.flags.toNat ∧ be16 B 14 = x.window ∧
        be16 B 16 = ocsum (patch16 B 16 0#16) ∧ be16 B 18 = x.urgent ∧ ocsum B = 0x0000#16) ∧
    (40 < x.options.length → s.Fails .tcpEnc .tooLarge)

/-- R184: TCP.DEC returns the fields at their offsets; the options are bytes 20 to 4 * data_off where that is past 20 and
within the input, and else empty; reserved bits and later bytes are discarded; fewer than 20 bytes are TooShort. -/
def Obligations.TcpDecRecord : Prop :=
  ∀ s : State, s.op.bytes.data.length ≤ s.cfg.maxOperandBytes →
    let B := s.op.bytes.data
    let d := (byteAt B 12).toNat / 2 ^ 4
    (20 ≤ B.length →
      s.Returns .tcpDec
        (.tcp
          { srcPort := be16 B 0, dstPort := be16 B 2, seq := be32 B 4, ack := be32 B 8, dataOff := BitVec.ofNat 4 d,
            flags := BitVec.ofNat 6 (byteAt B 13).toNat, window := be16 B 14, checksum := be16 B 16,
            urgent := be16 B 18,
            options := if 20 < 4 * d ∧ 4 * d ≤ B.length then (B.drop 20).take (4 * d - 20) else [] })) ∧
    (B.length < 20 → s.Fails .tcpDec .tooShort)

/-- R185: for a valid record (options a multiple of 4 and at most 40 bytes, data_off = 5 + len/4, the checksum TCP.ENC
computes), decoding what TCP.ENC returned gives the record back. -/
def Obligations.TcpRoundTrip : Prop :=
  ∀ (s u : State) (B : Bytes), s.Returns .tcpEnc (.bytes B) → u.op.bytes.data = B →
    s.op.tcp.options.length % 4 = 0 → s.op.tcp.dataOff.toNat = 5 + s.op.tcp.options.length / 4 →
      s.op.tcp.checksum = be16 B 16 → u.Returns .tcpDec (.tcp s.op.tcp)

/-- R187: TCP.HASFLAG is 1 exactly when every flag of the mask is set in the record's flags. -/
def Obligations.TcpHasFlagResult : Prop :=
  ∀ (s : State) (m : BitVec 6), s.op.tcp.options.length ≤ s.cfg.maxOperandBytes →
    ∃ v : BitVec 1, s.Returns (.tcpHasFlag m) (.u1 v) ∧
      (v = 1#1 ↔ ∀ j, m.getLsbD j = true → s.op.tcp.flags.getLsbD j = true)

/-! ## UDP -/

/-- R201, R202: UDP.ENC of a packet of at most 65535 bytes returns the image with the computed length and the checksum
over the image (or, by UDP_CSUM_SCOPE, its first 8 bytes) with that field zero; that coverage of the image has `ocsum`
0x0000. A longer packet is TooLarge. -/
def Obligations.UdpEncImage : Prop :=
  ∀ s : State,
    let x := s.op.udp
    let cov := fun B : Bytes => if s.cfg.udpCsumScope = .hdrPayload then B else B.take 8
    (8 + x.payload.length ≤ 65535 →
      ∃ B : Bytes, s.Returns .udpEnc (.bytes B) ∧ B.length = 8 + x.payload.length ∧ be16 B 0 = x.srcPort ∧
        be16 B 2 = x.dstPort ∧ (be16 B 4).toNat = B.length ∧ be16 B 6 = ocsum (cov (patch16 B 6 0#16)) ∧
        B.drop 8 = x.payload ∧ ocsum (cov B) = 0x0000#16) ∧
    (65535 < 8 + x.payload.length → s.Fails .udpEnc .tooLarge)

/-- R203: UDP.DEC returns the fields at their offsets and every byte after byte 7 as payload, whatever the length field
says; fewer than 8 bytes are TooShort. -/
def Obligations.UdpDecRecord : Prop :=
  ∀ s : State, s.op.bytes.data.length ≤ s.cfg.maxOperandBytes →
    let B := s.op.bytes.data
    (8 ≤ B.length →
      s.Returns .udpDec
        (.udp
          { srcPort := be16 B 0, dstPort := be16 B 2, length := be16 B 4, checksum := be16 B 6, payload := B.drop 8 })) ∧
    (B.length < 8 → s.Fails .udpDec .tooShort)

/-- R204: for a valid record (length 8 + payload, the checksum UDP.ENC computes), decoding what UDP.ENC returned gives the
record back. -/
def Obligations.UdpRoundTrip : Prop :=
  ∀ (s u : State) (B : Bytes), s.Returns .udpEnc (.bytes B) → u.op.bytes.data = B →
    s.op.udp.length.toNat = 8 + s.op.udp.payload.length → s.op.udp.checksum = be16 B 6 →
      u.Returns .udpDec (.udp s.op.udp)

/-! ## ICMP -/

/-- R211, R212: ICMP.ENC of a message whose image is within MAX_OPERAND_BYTES returns the image with the checksum over
the whole image with that field zero; `ocsum` of the image is 0x0000. No longer image is a result (R62): TooLarge, which
for a payload itself within MAX_OPERAND_BYTES is the model's deduction (log entry 9). -/
def Obligations.IcmpEncImage : Prop :=
  ∀ s : State,
    let x := s.op.icmp
    (8 + x.payload.length ≤ s.cfg.maxOperandBytes →
      ∃ B : Bytes, s.Returns .icmpEnc (.bytes B) ∧ B.length = 8 + x.payload.length ∧ byteAt B 0 = x.itype ∧
        byteAt B 1 = x.code ∧ be16 B 2 = ocsum (patch16 B 2 0#16) ∧ be16 B 4 = x.id ∧ be16 B 6 = x.seq ∧
        B.drop 8 = x.payload ∧ ocsum B = 0x0000#16) ∧
    (s.cfg.maxOperandBytes < 8 + x.payload.length → s.Fails .icmpEnc .tooLarge)

/-- R213: ICMP.DEC returns the fields at their offsets and every byte after byte 7 as payload; fewer than 8 bytes are
TooShort. -/
def Obligations.IcmpDecRecord : Prop :=
  ∀ s : State, s.op.bytes.data.length ≤ s.cfg.maxOperandBytes →
    let B := s.op.bytes.data
    (8 ≤ B.length →
      s.Returns .icmpDec
        (.icmp
          { itype := byteAt B 0, code := byteAt B 1, checksum := be16 B 2, id := be16 B 4, seq := be16 B 6,
            payload := B.drop 8 })) ∧
    (B.length < 8 → s.Fails .icmpDec .tooShort)

/-- R214: for a record that holds the checksum ICMP.ENC computes, decoding what ICMP.ENC returned gives the record back,
on a block with the same parameters or any other whose MAX_OPERAND_BYTES the image is within. -/
def Obligations.IcmpRoundTrip : Prop :=
  ∀ (s u : State) (B : Bytes), s.Returns .icmpEnc (.bytes B) → u.op.bytes.data = B →
    (u.cfg = s.cfg ∨ B.length ≤ u.cfg.maxOperandBytes) → s.op.icmp.checksum = be16 B 2 → u.Returns .icmpDec (.icmp s.op.icmp)

/-- R215, R216, R217: ICMP.ISREQ is 1 exactly for type 8 and ICMP.ISREP exactly for type 0, whatever the code; ICMP.REPLY
returns type, code and checksum 0 with the identifier, sequence number and payload copied, whatever the type. -/
def Obligations.IcmpPredicatesAndReply : Prop :=
  ∀ s : State, s.op.icmp.payload.length ≤ s.cfg.maxOperandBytes →
    s.Returns .icmpIsReq (.u1 (if s.op.icmp.itype.toNat = 8 then 1 else 0)) ∧
    s.Returns .icmpIsRep (.u1 (if s.op.icmp.itype.toNat = 0 then 1 else 0)) ∧
    s.Returns .icmpReply
      (.icmp
        { itype := 0, code := 0, checksum := 0, id := s.op.icmp.id, seq := s.op.icmp.seq,
          payload := s.op.icmp.payload })

/-! ## Connection contexts -/

/-- R231: CONN.CREATE, in every state of the context, leaves exactly the creation values and the operands' addresses and
ports, and sends no notification. -/
def Obligations.ConnCreateEffect : Prop :=
  ∀ (s : State) (k : BitVec 8), k.toNat < s.nConn →
    exec (.connCreate k) s =
      .next
        { s with
          conns :=
            s.conns.set k.toNat
              { state := .closed, sndSeq := s.cfg.initSndSeq, rcvSeq := s.cfg.initRcvSeq, sndWnd := s.cfg.initSndWnd,
                rcvWnd := s.cfg.initRcvWnd, cwnd := s.cfg.initCwnd, ssthresh := s.cfg.initSsthresh, sndBuf := [],
                rcvBuf := [], localAddr := s.op.create.localAddr, localPort := s.op.create.localPort,
                remoteAddr := s.op.create.remoteAddr, remotePort := s.op.create.remotePort, cbEn := 0 }
          responses := s.responses ++ [{ status := .ok, result := none, notes := [] }] }

/-- R235, R236, R237: CONN.CONNECT from CLOSED leaves ESTABLISHED with RCV_SEQ = isn + 1 and SND_SEQ = isn + P_SYN_ADV
(mod 2^32) for the value isn it draws, one StateChange(4) where CB_EN[0] is 1, and every other register as it was; from
any other state it fails with InvalidState. The statement holds whatever the draw is. -/
def Obligations.ConnConnectEffect : Prop :=
  ∀ (s : State) (k : BitVec 8) (c : Conn), s.conn? k = some c →
    (c.state = .closed →
      ∃ (isn : BitVec 32) (n : Nat),
        exec (.connConnect k) s =
          .next
            { s with
              conns :=
                s.conns.set k.toNat
                  { c with
                    state := .established
                    sndSeq := BitVec.ofNat 32 (isn.toNat + s.cfg.pSynAdv.toNat)
                    rcvSeq := BitVec.ofNat 32 (isn.toNat + 1) }
              responses :=
                s.responses ++
                  [{ status := .ok, result := none,
                     notes := if c.cbEn.getLsbD 0 then [.stateChange 4] else [] }]
              draws := n }) ∧
    (c.state ≠ .closed → s.Fails (.connConnect k) .invalidState)

/-- R240: CONN.LISTEN, from every state, sets STATE to LISTEN and changes no other register, and sends StateChange(1)
every time where CB_EN[0] is 1. -/
def Obligations.ConnListenEffect : Prop :=
  ∀ (s : State) (k : BitVec 8) (c : Conn), s.conn? k = some c →
    exec (.connListen k) s =
      .next
        { s with
          conns := s.conns.set k.toNat { c with state := .listen }
          responses :=
            s.responses ++
              [{ status := .ok, result := none, notes := if c.cbEn.getLsbD 0 then [.stateChange 1] else [] }] }

/-- R245, with the priority of R273: CONN.SEND in ESTABLISHED, within CONN_BUF_CAP, appends the data to SND_BUF, adds its
length to SND_SEQ mod 2^32, and sends no notification; else InvalidState outside ESTABLISHED, before TooLarge past
CONN_BUF_CAP. -/
def Obligations.ConnSendEffect : Prop :=
  ∀ (s : State) (k : BitVec 8) (c : Conn), s.conn? k = some c → s.op.bytes.data.length ≤ s.cfg.maxOperandBytes →
    let data := s.op.bytes.data
    let full := ∃ cap, s.cfg.connBufCap = some cap ∧ cap < c.sndBuf.length + data.length
    (c.state = .established → ¬ full →
      exec (.connSend k) s =
        .next
          { s with
            conns :=
              s.conns.set k.toNat
                { c with
                  sndBuf := c.sndBuf ++ data
                  sndSeq := BitVec.ofNat 32 (c.sndSeq.toNat + data.length) }
            responses := s.responses ++ [{ status := .ok, result := none, notes := [] }] }) ∧
    (c.state = .established → full → s.Fails (.connSend k) .tooLarge) ∧
    (c.state ≠ .established → s.Fails (.connSend k) .invalidState)

/-- R250: CONN.RECV, in every state and within CONN_BUF_CAP, appends the data to RCV_BUF, adds its length to RCV_SEQ mod
2^32, and sends DataReceived with the data (empty data too) where CB_EN[1] is 1; past CONN_BUF_CAP it is TooLarge. -/
def Obligations.ConnRecvEffect : Prop :=
  ∀ (s : State) (k : BitVec 8) (c : Conn), s.conn? k = some c → s.op.bytes.data.length ≤ s.cfg.maxOperandBytes →
    let data := s.op.bytes.data
    let full := ∃ cap, s.cfg.connBufCap = some cap ∧ cap < c.rcvBuf.length + data.length
    (¬ full →
      exec (.connRecv k) s =
        .next
          { s with
            conns :=
              s.conns.set k.toNat
                { c with
                  rcvBuf := c.rcvBuf ++ data
                  rcvSeq := BitVec.ofNat 32 (c.rcvSeq.toNat + data.length) }
            responses :=
              s.responses ++
                [{ status := .ok, result := none,
                   notes := if c.cbEn.getLsbD 1 then [.dataReceived data] else [] }] }) ∧
    (full → s.Fails (.connRecv k) .tooLarge)

/-- R253, R254: CONN.CLOSE of a context that is not CLOSED leaves CLOSED with one StateChange(5) where CB_EN[0] is 1 and
every other register and both buffers as they were; of a CLOSED context it is a successful no-op. -/
def Obligations.ConnCloseEffect : Prop :=
  ∀ (s : State) (k : BitVec 8) (c : Conn), s.conn? k = some c →
    (c.state ≠ .closed →
      exec (.connClose k) s =
        .next
          { s with
            conns := s.conns.set k.toNat { c with state := .closed }
            responses :=
              s.responses ++
                [{ status := .ok, result := none, notes := if c.cbEn.getLsbD 0 then [.stateChange 5] else [] }] }) ∧
    (c.state = .closed →
      exec (.connClose k) s =
        .next { s with responses := s.responses ++ [{ status := .ok, result := none, notes := [] }] })

/-- R258: CONN.SETCB, in every state, sets CB_EN to the enables and changes nothing else. -/
def Obligations.ConnSetCbEffect : Prop :=
  ∀ (s : State) (k : BitVec 8) (e : BitVec 2) (c : Conn), s.conn? k = some c →
    exec (.connSetCb k e) s =
      .next
        { s with
          conns := s.conns.set k.toNat { c with cbEn := e }
          responses := s.responses ++ [{ status := .ok, result := none, notes := [] }] }

/-- R256, R26: CONN.RDREG returns the numbered register of the context, zero-extended, and changes no register. -/
def Obligations.ConnRdRegResult : Prop :=
  ∀ (s : State) (k : BitVec 8) (r : Reg) (c : Conn), s.conn? k = some c →
    let table : List Nat :=
      [c.state.code.toNat, c.sndSeq.toNat, c.rcvSeq.toNat, c.sndWnd.toNat, c.rcvWnd.toNat, c.cwnd.toNat,
       c.ssthresh.toNat, c.sndBuf.length % 2 ^ 32, c.rcvBuf.length % 2 ^ 32, c.localAddr.toNat, c.localPort.toNat,
       c.remoteAddr.toNat, c.remotePort.toNat, c.cbEn.toNat]
    ∃ v : BitVec 32, s.Returns (.connRdReg k r) (.u32 v) ∧ table[(Reg.number r).toNat]? = some v.toNat

/-- R259: CONN.RDBUF returns the whole selected buffer and changes no register; a buffer longer than MAX_OPERAND_BYTES is
TooLarge. -/
def Obligations.ConnRdBufResult : Prop :=
  ∀ (s : State) (k : BitVec 8) (b : BufSel) (c : Conn), s.conn? k = some c →
    let buf := if b.bit = 0#1 then c.sndBuf else c.rcvBuf
    (buf.length ≤ s.cfg.maxOperandBytes → s.Returns (.connRdBuf k b) (.bytes buf)) ∧
    (s.cfg.maxOperandBytes < buf.length → s.Fails (.connRdBuf k b) .tooLarge)
end

