-- ==== Sys2Proof/Laws/Bytes.lean ====
section
/-! SUPPORT. The big-endian readers and writers are inverses; lengths of images. -/

namespace Sys2Proof.Machine

@[simp] theorem put8_length (v : BitVec 8) : (put8 v).length = 1 := rfl
@[simp] theorem put16_length (v : BitVec 16) : (put16 v).length = 2 := rfl
@[simp] theorem put32_length (v : BitVec 32) : (put32 v).length = 4 := rfl
@[simp] theorem put48_length (v : BitVec 48) : (put48 v).length = 6 := rfl
@[simp] theorem zeros_length (n : Nat) : (zeros n).length = n := by simp [zeros]

@[simp] theorem patch16_length {B : Bytes} {i : Nat} (h : i + 2 ≤ B.length) (v : BitVec 16) :
    (patch16 B i v).length = B.length := by
  simp [patch16]
  omega

/-- A half of a 32-bit value, and the value from its halves. -/
theorem append_halves_16 (v : BitVec 16) : v.extractLsb' 8 8 ++ v.extractLsb' 0 8 = v := by
  apply BitVec.eq_of_toNat_eq
  simp only [BitVec.toNat_append, BitVec.extractLsb'_toNat, Nat.shiftRight_zero]
  rw [← Nat.shiftLeft_add_eq_or_of_lt (by omega), Nat.shiftLeft_eq, Nat.shiftRight_eq_div_pow]
  have := v.isLt
  omega

theorem append_halves_32 (v : BitVec 32) : v.extractLsb' 16 16 ++ v.extractLsb' 0 16 = v := by
  apply BitVec.eq_of_toNat_eq
  simp only [BitVec.toNat_append, BitVec.extractLsb'_toNat, Nat.shiftRight_zero]
  rw [← Nat.shiftLeft_add_eq_or_of_lt (by omega), Nat.shiftLeft_eq, Nat.shiftRight_eq_div_pow]
  have := v.isLt
  omega

theorem append_parts_48 (v : BitVec 48) : v.extractLsb' 32 16 ++ v.extractLsb' 0 32 = v := by
  apply BitVec.eq_of_toNat_eq
  simp only [BitVec.toNat_append, BitVec.extractLsb'_toNat, Nat.shiftRight_zero]
  rw [← Nat.shiftLeft_add_eq_or_of_lt (by omega), Nat.shiftLeft_eq, Nat.shiftRight_eq_div_pow]
  have := v.isLt
  omega

/-- Appending two parts is a multiplication and an addition. -/
theorem toNat_append_eq {m n : Nat} (a : BitVec m) (b : BitVec n) :
    (a ++ b).toNat = a.toNat * 2 ^ n + b.toNat := by
  rw [BitVec.toNat_append, ← Nat.shiftLeft_add_eq_or_of_lt b.isLt, Nat.shiftLeft_eq]

@[simp] theorem byteAt_cons_zero (b : Byte) (B : Bytes) : byteAt (b :: B) 0 = b := rfl
@[simp] theorem byteAt_cons_succ (b : Byte) (B : Bytes) (i : Nat) : byteAt (b :: B) (i + 1) = byteAt B i := rfl

theorem byteAt_append_right {A : Bytes} {n : Nat} (h : A.length = n) (B : Bytes) (i : Nat) :
    byteAt (A ++ B) (n + i) = byteAt B i := by
  subst h
  simp [byteAt, List.getElem?_append_right (Nat.le_add_right _ _)]

theorem byteAt_append_left {A : Bytes} {i : Nat} (h : i < A.length) (B : Bytes) : byteAt (A ++ B) i = byteAt A i := by
  simp [byteAt, List.getElem?_append_left h]

/-- A field is read past what stands before it. -/
theorem be16_append_right {A : Bytes} {n : Nat} (h : A.length = n) (B : Bytes) (i : Nat) :
    be16 (A ++ B) (n + i) = be16 B i := by
  rw [be16, be16, byteAt_append_right h, Nat.add_assoc, byteAt_append_right h]

theorem be32_append_right {A : Bytes} {n : Nat} (h : A.length = n) (B : Bytes) (i : Nat) :
    be32 (A ++ B) (n + i) = be32 B i := by
  rw [be32, be32, be16_append_right h, Nat.add_assoc, be16_append_right h]

theorem be48_append_right {A : Bytes} {n : Nat} (h : A.length = n) (B : Bytes) (i : Nat) :
    be48 (A ++ B) (n + i) = be48 B i := by
  rw [be48, be48, be16_append_right h, Nat.add_assoc, be32_append_right h]

/-- Reading a field where it was written. -/
theorem be16_put16 (v : BitVec 16) (B : Bytes) : be16 (put16 v ++ B) 0 = v := append_halves_16 v

theorem be32_put32 (v : BitVec 32) (B : Bytes) : be32 (put32 v ++ B) 0 = v := by
  rw [put32, List.append_assoc, be32, be16_put16, Nat.zero_add, be16_append_right (put16_length _) _ 0, be16_put16]
  exact append_halves_32 v

theorem be48_put48 (v : BitVec 48) (B : Bytes) : be48 (put48 v ++ B) 0 = v := by
  rw [put48, List.append_assoc, be48, be16_put16, Nat.zero_add, be32_append_right (put16_length _) _ 0, be32_put32]
  exact append_parts_48 v

/-- Writing what the two bytes of a 16-bit field read as gives those bytes. -/
theorem put16_append (a b : Byte) : put16 (a ++ b) = [a, b] := by
  have ha := a.isLt
  have hb := b.isLt
  have h1 : (a ++ b).extractLsb' 8 8 = a := by
    apply BitVec.eq_of_toNat_eq
    rw [BitVec.extractLsb'_toNat, toNat_append_eq, Nat.shiftRight_eq_div_pow]
    omega
  have h2 : (a ++ b).extractLsb' 0 8 = b := by
    apply BitVec.eq_of_toNat_eq
    rw [BitVec.extractLsb'_toNat, toNat_append_eq, Nat.shiftRight_zero]
    omega
  exact congrArg₂ (fun x y : Byte => [x, y]) h1 h2

theorem put16_be16 (B : Bytes) (i : Nat) : put16 (be16 B i) = [byteAt B i, byteAt B (i + 1)] := put16_append _ _

theorem put32_be32 (B : Bytes) (i : Nat) :
    put32 (be32 B i) = [byteAt B i, byteAt B (i + 1), byteAt B (i + 2), byteAt B (i + 3)] := by
  have h := (be16 B (i + 2)).isLt
  have h' := (be16 B i).isLt
  have h1 : (be32 B i).extractLsb' 16 16 = be16 B i := by
    apply BitVec.eq_of_toNat_eq
    rw [BitVec.extractLsb'_toNat, be32, toNat_append_eq, Nat.shiftRight_eq_div_pow]
    omega
  have h2 : (be32 B i).extractLsb' 0 16 = be16 B (i + 2) := by
    apply BitVec.eq_of_toNat_eq
    rw [BitVec.extractLsb'_toNat, be32, toNat_append_eq, Nat.shiftRight_zero]
    omega
  rw [put32, h1, h2, put16_be16, put16_be16]
  rfl

theorem put48_be48 (B : Bytes) (i : Nat) :
    put48 (be48 B i) =
      [byteAt B i, byteAt B (i + 1), byteAt B (i + 2), byteAt B (i + 3), byteAt B (i + 4), byteAt B (i + 5)] := by
  have h := (be32 B (i + 2)).isLt
  have h' := (be16 B i).isLt
  have h1 : (be48 B i).extractLsb' 32 16 = be16 B i := by
    apply BitVec.eq_of_toNat_eq
    rw [BitVec.extractLsb'_toNat, be48, toNat_append_eq, Nat.shiftRight_eq_div_pow]
    omega
  have h2 : (be48 B i).extractLsb' 0 32 = be32 B (i + 2) := by
    apply BitVec.eq_of_toNat_eq
    rw [BitVec.extractLsb'_toNat, be48, toNat_append_eq, Nat.shiftRight_zero]
    omega
  rw [put48, h1, h2, put16_be16, put32_be32]
  rfl

theorem slice_to_end (B : Bytes) (i : Nat) : slice B i B.length = B.drop i := by
  simp [slice, List.take_of_length_le]

/-- Replacing two bytes past a first part leaves that part alone. -/
theorem patch16_append_right {A : Bytes} {n : Nat} (h : A.length = n) (B : Bytes) (j : Nat) (v : BitVec 16) :
    patch16 (A ++ B) (n + j) v = A ++ patch16 B j v := by
  subst h
  simp only [patch16]
  rw [List.take_length_add_append, Nat.add_assoc, List.drop_length_add_append]
  simp

theorem patch16_append_left {A : Bytes} {j : Nat} (h : j + 2 ≤ A.length) (B : Bytes) (v : BitVec 16) :
    patch16 (A ++ B) j v = patch16 A j v ++ B := by
  simp only [patch16]
  rw [List.take_append_of_le_length (by omega), List.drop_append_of_le_length (by omega)]
  simp

/-- Writing what the field holds changes nothing. -/
theorem patch16_self {B : Bytes} {j : Nat} (h : j + 2 ≤ B.length) : patch16 B j (be16 B j) = B := by
  rw [patch16, put16_be16]
  have h1 : byteAt B j = B[j] := List.getD_eq_getElem _ _ _
  have h2 : byteAt B (j + 1) = B[j + 1] := List.getD_eq_getElem _ _ _
  rw [h1, h2]
  conv_rhs => rw [← List.take_append_drop j B]
  rw [List.append_assoc]
  congr 1
  rw [List.drop_eq_getElem_cons (by omega : j < B.length), List.drop_eq_getElem_cons (by omega : j + 1 < B.length)]
  rfl

/-- The later of two writes to a field stays. -/
theorem patch16_patch16 {B : Bytes} {j : Nat} (h : j + 2 ≤ B.length) (v w : BitVec 16) :
    patch16 (patch16 B j v) j w = patch16 B j w := by
  have hl : (B.take j).length = j := by simp; omega
  have e : patch16 B j v = B.take j ++ (put16 v ++ B.drop (j + 2)) := by simp [patch16]
  have h0 : patch16 (B.take j ++ (put16 v ++ B.drop (j + 2))) j w = _ :=
    patch16_append_right hl (put16 v ++ B.drop (j + 2)) 0 w
  rw [e, h0]
  simp [patch16, put16]

end Sys2Proof.Machine
end

