-- ==== Sys2Proof/Laws/Checksum.lean ====
section
/-! SUPPORT. The carry fold of the Internet checksum: it ends below 2^16, keeps the sum modulo 0xFFFF, and is 0 only
for the sum 0; the word sum of a concatenation. -/

namespace Sys2Proof.Machine

/-- Fuel of at least the sum is enough: the fold ends below 2^16. -/
theorem foldCarry_lt : ∀ (fuel s : Nat), s ≤ fuel → foldCarry fuel s < 2 ^ 16
  | 0, s, h => by
    have : s = 0 := by omega
    simp [foldCarry, this]
  | fuel + 1, s, h => by
    unfold foldCarry
    split
    · assumption
    · exact foldCarry_lt fuel _ (by omega)

/-- The fold keeps the sum modulo 0xFFFF. -/
theorem foldCarry_mod : ∀ fuel s : Nat, foldCarry fuel s % 0xFFFF = s % 0xFFFF
  | 0, _ => rfl
  | fuel + 1, s => by
    unfold foldCarry
    split
    · rfl
    · rw [foldCarry_mod fuel]
      omega

/-- The fold is 0 only for the sum 0. -/
theorem foldCarry_eq_zero_iff : ∀ fuel s : Nat, foldCarry fuel s = 0 ↔ s = 0
  | 0, _ => Iff.rfl
  | fuel + 1, s => by
    unfold foldCarry
    split
    · rfl
    · rw [foldCarry_eq_zero_iff fuel]
      omega

theorem ocsum_toNat (B : Bytes) : (ocsum B).toNat = 0xFFFF - foldCarry (wordSum B) (wordSum B) := by
  simp only [ocsum, BitVec.toNat_ofNat]
  omega

/-- The word sum of a concatenation, when the first part has even length. -/
theorem wordSum_append : ∀ (A B : Bytes), A.length % 2 = 0 → wordSum (A ++ B) = wordSum A + wordSum B
  | [], B, _ => by simp [wordSum]
  | [_], _, h => by simp at h
  | a :: b :: A, B, h => by
    have h' : A.length % 2 = 0 := by simp at h; omega
    simp only [List.cons_append, wordSum, wordSum_append A B h']
    omega

/-- The word sum of a 16-bit field is its value. -/
theorem wordSum_put16 (v : BitVec 16) : wordSum (put16 v) = v.toNat := by
  have := v.isLt
  simp only [put16, wordSum, BitVec.extractLsb'_toNat, Nat.shiftRight_eq_div_pow]
  omega

/-- A field at an even offset adds its value to the word sum. -/
theorem wordSum_patch16 {B : Bytes} {j : Nat} (hj : j % 2 = 0) (hl : j + 2 ≤ B.length) (v : BitVec 16) :
    wordSum (patch16 B j v) = wordSum (patch16 B j 0#16) + v.toNat := by
  have h1 : (B.take j).length % 2 = 0 := by simp; omega
  simp only [patch16, List.append_assoc]
  rw [wordSum_append _ _ h1, wordSum_append _ _ h1, wordSum_append _ _ (by simp), wordSum_append _ _ (by simp),
    wordSum_put16, wordSum_put16]
  simp
  omega

end Sys2Proof.Machine
end

