-- ==== Sys2Proof/Laws/Decode.lean ====
section
/-! SUPPORT. The fields of a command word, and what decoding a word built from fields gives. -/

namespace Sys2Proof

open Sys2Proof.Machine (toNat_append_eq)

theorem opField_commandWord (c a o : BitVec 8) : opField (commandWord c a o) = o := by
  apply BitVec.eq_of_toNat_eq
  have := o.isLt
  simp only [opField, commandWord, BitVec.extractLsb'_toNat, toNat_append_eq, Nat.shiftRight_zero]
  omega

theorem argField_commandWord (c a o : BitVec 8) : argField (commandWord c a o) = a := by
  apply BitVec.eq_of_toNat_eq
  have := o.isLt
  have := a.isLt
  simp only [argField, commandWord, BitVec.extractLsb'_toNat, toNat_append_eq, Nat.shiftRight_eq_div_pow]
  omega

theorem ctxField_commandWord (c a o : BitVec 8) : ctxField (commandWord c a o) = c := by
  apply BitVec.eq_of_toNat_eq
  have := o.isLt
  have := a.isLt
  have := c.isLt
  simp only [ctxField, commandWord, BitVec.extractLsb'_toNat, toNat_append_eq, Nat.shiftRight_eq_div_pow]
  omega

theorem rsvField_commandWord (c a o : BitVec 8) : rsvField (commandWord c a o) = 0#8 := by
  apply BitVec.eq_of_toNat_eq
  have := o.isLt
  have := a.isLt
  have := c.isLt
  simp only [rsvField, commandWord, BitVec.extractLsb'_toNat, toNat_append_eq, Nat.shiftRight_eq_div_pow,
    BitVec.toNat_ofNat]
  omega

/-- A word with RSV = 0 is built from its fields. -/
theorem commandWord_fields {w : Word} (h : rsvField w = 0#8) :
    commandWord (ctxField w) (argField w) (opField w) = w := by
  have h := congrArg BitVec.toNat h
  apply BitVec.eq_of_toNat_eq
  have := w.isLt
  simp only [opField, argField, ctxField, rsvField, commandWord, BitVec.extractLsb'_toNat, toNat_append_eq,
    Nat.shiftRight_eq_div_pow, BitVec.toNat_ofNat] at *
  omega

theorem Opcode.ofByte?_byte (o : Opcode) : Opcode.ofByte? o.byte = some o := by cases o <;> decide

theorem Opcode.byte_of_ofByte? {b : BitVec 8} {o : Opcode} (h : Opcode.ofByte? b = some o) : o.byte = b := by
  simpa using List.find?_some h

theorem Reg.ofNumber?_number (r : Reg) : Reg.ofNumber? r.number = some r := by cases r <;> decide

theorem Reg.number_of_ofNumber? {n : BitVec 8} {r : Reg} (h : Reg.ofNumber? n = some r) : r.number = n := by
  simpa using List.find?_some h

/-- Decoding a word built from an opcode and its CTX and ARG is building the command. -/
theorem decode_commandWord (c a : BitVec 8) (o : Opcode) : decode (commandWord c a o.byte) = o.build c a := by
  simp [decode, opField_commandWord, argField_commandWord, ctxField_commandWord, rsvField_commandWord,
    Opcode.ofByte?_byte]

end Sys2Proof
end

