-- ==== Sys2Proof/Laws/State.lean ====
section
/-! SUPPORT. One lemma per field per update of the state, so that no proof unfolds a record update. -/

namespace Sys2Proof.Machine

variable (s : State) (r : Response) (k : BitVec 8) (c : Conn) (n : Nat)

@[simp] theorem State.respond_conns : (s.respond r).conns = s.conns := rfl
@[simp] theorem State.respond_pending : (s.respond r).pending = s.pending := rfl
@[simp] theorem State.respond_op : (s.respond r).op = s.op := rfl
@[simp] theorem State.respond_responses : (s.respond r).responses = s.responses ++ [r] := rfl
@[simp] theorem State.respond_cfg : (s.respond r).cfg = s.cfg := rfl
@[simp] theorem State.respond_draws : (s.respond r).draws = s.draws := rfl
@[simp] theorem State.respond_nConn : (s.respond r).nConn = s.nConn := rfl
@[simp] theorem State.respond_conn? : (s.respond r).conn? k = s.conn? k := rfl

@[simp] theorem State.setConn_conns : (s.setConn k c).conns = s.conns.set k.toNat c := rfl
@[simp] theorem State.setConn_pending : (s.setConn k c).pending = s.pending := rfl
@[simp] theorem State.setConn_op : (s.setConn k c).op = s.op := rfl
@[simp] theorem State.setConn_responses : (s.setConn k c).responses = s.responses := rfl
@[simp] theorem State.setConn_cfg : (s.setConn k c).cfg = s.cfg := rfl
@[simp] theorem State.setConn_draws : (s.setConn k c).draws = s.draws := rfl
@[simp] theorem State.setConn_nConn : (s.setConn k c).nConn = s.nConn := by simp [State.nConn]

@[simp] theorem State.advanceDraws_conns : (s.advanceDraws n).conns = s.conns := rfl
@[simp] theorem State.advanceDraws_pending : (s.advanceDraws n).pending = s.pending := rfl
@[simp] theorem State.advanceDraws_op : (s.advanceDraws n).op = s.op := rfl
@[simp] theorem State.advanceDraws_responses : (s.advanceDraws n).responses = s.responses := rfl
@[simp] theorem State.advanceDraws_cfg : (s.advanceDraws n).cfg = s.cfg := rfl
@[simp] theorem State.advanceDraws_draws : (s.advanceDraws n).draws = s.draws + n := rfl
@[simp] theorem State.advanceDraws_nConn : (s.advanceDraws n).nConn = s.nConn := rfl
@[simp] theorem State.advanceDraws_conn? : (s.advanceDraws n).conn? k = s.conn? k := rfl
@[simp] theorem State.advanceDraws_zero : s.advanceDraws 0 = s := rfl

variable (cmd : Command) (rest : List Command)

@[simp] theorem State.accept_conns : (s.accept cmd rest).conns = s.conns := rfl
@[simp] theorem State.accept_pending : (s.accept cmd rest).pending = rest := rfl
@[simp] theorem State.accept_op : (s.accept cmd rest).op = cmd.op := rfl
@[simp] theorem State.accept_responses : (s.accept cmd rest).responses = s.responses := rfl
@[simp] theorem State.accept_cfg : (s.accept cmd rest).cfg = s.cfg := rfl
@[simp] theorem State.accept_draws : (s.accept cmd rest).draws = s.draws := rfl
@[simp] theorem State.accept_nConn : (s.accept cmd rest).nConn = s.nConn := rfl
@[simp] theorem State.accept_conn? : (s.accept cmd rest).conn? k = s.conn? k := rfl

/-- Writing a context and reading it back. -/
theorem State.conn?_setConn_self {s : State} {k : BitVec 8} {c₀ : Conn} (h : s.conn? k = some c₀) (c : Conn) :
    (s.setConn k c).conn? k = some c := by
  have hk : k.toNat < s.conns.length := (List.getElem?_eq_some_iff.mp h).1
  simp [State.conn?, hk]

/-- Writing a context leaves every other one alone. -/
theorem State.conn?_setConn_ne {k j : BitVec 8} (h : k ≠ j) (s : State) (c : Conn) :
    (s.setConn k c).conn? j = s.conn? j := by
  have hk : k.toNat ≠ j.toNat := fun e => h (BitVec.eq_of_toNat_eq e)
  simp [State.conn?, hk]

/-- Writing what a context holds changes nothing. -/
theorem State.setConn_self {s : State} {k : BitVec 8} {c : Conn} (h : s.conn? k = some c) : s.setConn k c = s := by
  obtain ⟨hk, hc⟩ := List.getElem?_eq_some_iff.mp h
  cases s
  simp only [State.setConn] at *
  subst hc
  simp

/-- A context the block has is one with a number below N_CONN. -/
theorem State.exists_conn? {s : State} {k : BitVec 8} (h : k.toNat < s.nConn) : ∃ c, s.conn? k = some c :=
  ⟨s.conns[k.toNat], List.getElem?_eq_getElem h⟩

/-- The block has no context of a number from N_CONN on. -/
theorem State.conn?_eq_none {s : State} {k : BitVec 8} (h : s.nConn ≤ k.toNat) : s.conn? k = none :=
  List.getElem?_eq_none h

end Sys2Proof.Machine
end

