-- ==== Sys2Proof/Laws/Ops.lean ====
section
/-! SUPPORT. What each shared operation can do, said once: the length check, the two shapes of a command, and that
every command of the dispatch has one of the two. -/

namespace Sys2Proof.Machine

/-- The length check is `n ≤ MAX_OPERAND_BYTES`. -/
theorem fits_iff (p : Params) (n : Nat) : fits p n = true ↔ n ≤ p.maxOperandBytes := by
  simp only [fits, Params.maxOperandBytes, decide_eq_true_eq]
  omega

theorem oversized_iff (p : Params) (f : Format) (op : OperandRecord) :
    oversized p f op = true ↔ ∃ B ∈ op.byteFields f, p.maxOperandBytes < B.length := by
  simp only [oversized, List.any_eq_true, Bool.not_eq_true', ← Bool.not_eq_true, fits_iff, Nat.not_le]

theorem not_oversized_iff (p : Params) (f : Format) (op : OperandRecord) :
    oversized p f op = false ↔ ∀ B ∈ op.byteFields f, B.length ≤ p.maxOperandBytes := by
  rw [← Bool.not_eq_true, oversized_iff]
  push Not
  rfl

/-- A bounded result is the sequence itself, and is within the limit. -/
theorem boundedResult_ok {p : Params} {B C : Bytes} (h : boundedResult p B = .ok C) :
    C = B ∧ C.length ≤ p.maxOperandBytes := by
  unfold boundedResult at h
  split at h <;> cases h
  exact ⟨rfl, (fits_iff _ _).mp ‹_›⟩

theorem boundedResult_of_le {p : Params} {B : Bytes} (h : B.length ≤ p.maxOperandBytes) :
    boundedResult p B = .ok B := by
  simp [boundedResult, (fits_iff _ _).mpr h]

theorem boundedResult_of_lt {p : Params} {B : Bytes} (h : p.maxOperandBytes < B.length) :
    boundedResult p B = .error .tooLarge := by
  have : fits p B.length = false := by rw [← Bool.not_eq_true, fits_iff]; omega
  simp [boundedResult, this]

theorem withinCap_iff (cap : Option Nat) (n : Nat) : withinCap cap n = true ↔ ∀ c, cap = some c → n ≤ c := by
  cases cap <;> simp [withinCap]

/-- A context-free command answers exactly one response and changes nothing else; it runs its function only on operands
within the limit. -/
theorem State.stateless_next (s : State) (f : Format) (run : OperandRecord → Except ErrorKind Result) :
    (∃ e, s.stateless f run = .next (s.respond (.failure e))) ∨
      ∃ r, (∀ B ∈ s.op.byteFields f, B.length ≤ s.cfg.maxOperandBytes) ∧ run s.op = .ok r ∧
        s.stateless f run = .next (s.respond (.success (some r) [])) := by
  unfold State.stateless
  split
  · exact .inl ⟨_, rfl⟩
  · cases h : run s.op with
    | error e => exact .inl ⟨e, rfl⟩
    | ok r => exact .inr ⟨r, (not_oversized_iff _ _ _).mp (Bool.eq_false_iff.mpr ‹_›), rfl, rfl⟩

/-- A context-free command with operands within the limit, where its function gives a result. -/
theorem State.stateless_ok {s : State} {f : Format} {run : OperandRecord → Except ErrorKind Result} {r : Result}
    (h : ∀ B ∈ s.op.byteFields f, B.length ≤ s.cfg.maxOperandBytes) (hr : run s.op = .ok r) :
    s.stateless f run = .next (s.respond (.success (some r) [])) := by
  simp [State.stateless, (not_oversized_iff _ _ _).mpr h, hr]

/-- A context-free command whose operands are too long ends in TooLarge. -/
theorem State.stateless_oversized {s : State} {f : Format} {B : Bytes}
    (run : OperandRecord → Except ErrorKind Result) (hB : B ∈ s.op.byteFields f)
    (h : s.cfg.maxOperandBytes < B.length) : s.stateless f run = s.raise .tooLarge := by
  simp [State.stateless, (oversized_iff _ _ _).mpr ⟨B, hB, h⟩]

/-- A context-free command with operands within the limit, where its function gives an error. -/
theorem State.stateless_error {s : State} {f : Format} {run : OperandRecord → Except ErrorKind Result} {e : ErrorKind}
    (h : ∀ B ∈ s.op.byteFields f, B.length ≤ s.cfg.maxOperandBytes) (hr : run s.op = .error e) :
    s.stateless f run = s.raise e := by
  simp [State.stateless, (not_oversized_iff _ _ _).mpr h, hr]

/-- A CONN.* command either ends in an error with nothing else changed, or has operands within the limit and leaves its
context as `d` says with one OK response. -/
theorem State.onContext_next (s : State) (k : BitVec 8) (f : Format) (run : Conn → Except ErrorKind Done) :
    (∃ e, s.onContext k f run = .next (s.respond (.failure e))) ∨
      ∃ c d, s.conn? k = some c ∧ (∀ B ∈ s.op.byteFields f, B.length ≤ s.cfg.maxOperandBytes) ∧ run c = .ok d ∧
        s.onContext k f run =
          .next (((s.setConn k d.conn).advanceDraws d.draws).respond (.success d.result d.notes)) := by
  unfold State.onContext
  cases hc : s.conn? k with
  | none => exact .inl ⟨_, rfl⟩
  | some c =>
    dsimp only
    split
    · exact .inl ⟨_, rfl⟩
    · cases h : run c with
      | error e => exact .inl ⟨e, rfl⟩
      | ok d => exact .inr ⟨c, d, rfl, (not_oversized_iff _ _ _).mp (Bool.eq_false_iff.mpr ‹_›), h, rfl⟩

/-- A CONN.* command on a context the block does not have is Illegal (30_encoding.md R85(d)). -/
theorem State.onContext_illegal {s : State} {k : BitVec 8} (f : Format) (run : Conn → Except ErrorKind Done)
    (hc : s.conn? k = none) : s.onContext k f run = s.raise .illegal := by
  simp [State.onContext, hc]

/-- A CONN.* command whose operands are too long ends in TooLarge. -/
theorem State.onContext_oversized {s : State} {k : BitVec 8} {f : Format} {c : Conn} {B : Bytes}
    (run : Conn → Except ErrorKind Done) (hc : s.conn? k = some c) (hB : B ∈ s.op.byteFields f)
    (h : s.cfg.maxOperandBytes < B.length) : s.onContext k f run = s.raise .tooLarge := by
  simp [State.onContext, hc, (oversized_iff _ _ _).mpr ⟨B, hB, h⟩]

/-- A CONN.* command with operands within the limit, where its function succeeds. -/
theorem State.onContext_ok {s : State} {k : BitVec 8} {f : Format} {run : Conn → Except ErrorKind Done} {c : Conn}
    {d : Done} (hc : s.conn? k = some c) (h : ∀ B ∈ s.op.byteFields f, B.length ≤ s.cfg.maxOperandBytes)
    (hd : run c = .ok d) :
    s.onContext k f run =
      .next (((s.setConn k d.conn).advanceDraws d.draws).respond (.success d.result d.notes)) := by
  simp [State.onContext, hc, (not_oversized_iff _ _ _).mpr h, hd]

/-- A CONN.* command with operands within the limit, where its function gives an error. -/
theorem State.onContext_error {s : State} {k : BitVec 8} {f : Format} {run : Conn → Except ErrorKind Done} {c : Conn}
    {e : ErrorKind} (hc : s.conn? k = some c) (h : ∀ B ∈ s.op.byteFields f, B.length ≤ s.cfg.maxOperandBytes)
    (he : run c = .error e) : s.onContext k f run = s.raise e := by
  simp [State.onContext, hc, (not_oversized_iff _ _ _).mpr h, he]

/-! Each codec's result is within the limit of MAX_OPERAND_BYTES: its own size limit, the operand's length or
`boundedResult` says so. -/

/-- `r`, if it is a result, has byte sequences within the limit. -/
def ResultFits (p : Params) (r : Except ErrorKind Result) : Prop :=
  ∀ v, r = .ok v → ∀ B ∈ v.byteFields, B.length ≤ p.maxOperandBytes

theorem minOperandBytes_le (p : Params) : 65547 ≤ p.maxOperandBytes := Nat.le_add_right _ _

/-- A result with no byte sequence fits. -/
theorem ResultFits.of_none {p : Params} {r : Except ErrorKind Result} (h : ∀ v, r = .ok v → v.byteFields = []) :
    ResultFits p r := fun v hv B hB => by simp [h v hv] at hB

theorem slice_length_le (B : Bytes) (i j : Nat) : (slice B i j).length ≤ B.length := by
  simp [slice]

/-! Lengths of images. -/

@[simp] theorem ipImage_length (x : FIp) : (ipImage x).length = 20 := by simp [ipImage]

@[simp] theorem tcpImage_length (x : FTcp) : (tcpImage x).length = 20 + (tcpPadded x.options).length := by
  simp [tcpImage]
  omega

@[simp] theorem udpImage_length (x : FUdp) : (udpImage x).length = 8 + x.payload.length := by
  simp [udpImage]
  omega

@[simp] theorem icmpImage_length (x : FIcmp) : (icmpImage x).length = 8 + x.payload.length := by
  simp [icmpImage]
  omega

/-- ICMP.ENC's image is a result exactly where it is within the limit. -/
theorem icmpEncode_eq (p : Params) (x : FIcmp) :
    icmpEncode p x =
      if 8 + x.payload.length ≤ p.maxOperandBytes then .ok (patch16 (icmpImage x) 2 (icmpChecksum x))
      else .error .tooLarge := by
  have hl : (patch16 (icmpImage x) 2 (icmpChecksum x)).length = 8 + x.payload.length := by
    rw [patch16_length (by simp; omega), icmpImage_length]
  unfold icmpEncode
  split
  · exact boundedResult_of_le (by omega)
  · exact boundedResult_of_lt (by omega)

theorem ethEncode_fits (p : Params) (x : FEth) : ResultFits p ((ethEncode x).map .bytes) := by
  have := minOperandBytes_le p
  intro v hv
  unfold ethEncode at hv
  split at hv <;> cases hv
  simp [Result.byteFields]
  omega

theorem ethDecode_fits (p : Params) {B : Bytes} (h : B.length ≤ p.maxOperandBytes) :
    ResultFits p ((ethDecode B).map .eth) := by
  intro v hv
  unfold ethDecode at hv
  split at hv <;> cases hv
  simpa [Result.byteFields] using (slice_length_le ..).trans h

theorem ipEncode_fits (p : Params) (x : FIp) : ResultFits p (.ok (.bytes (ipEncode x))) := by
  have := minOperandBytes_le p
  rintro v ⟨⟩
  simp only [Result.byteFields, List.mem_singleton, forall_eq, ipEncode]
  rw [patch16_length (by simp), ipImage_length]
  omega

theorem ipDecode_fits (p : Params) (B : Bytes) : ResultFits p ((ipDecode B).map .ip) := by
  refine .of_none fun v hv => ?_
  unfold ipDecode at hv
  split at hv <;> cases hv
  rfl

theorem tcpEncode_fits (p : Params) (x : FTcp) : ResultFits p ((tcpEncode x).map .bytes) := by
  have := minOperandBytes_le p
  intro v hv
  unfold tcpEncode at hv
  split at hv <;> cases hv
  simp only [Result.byteFields, List.mem_singleton, forall_eq]
  rw [patch16_length (by simp; omega), tcpImage_length]
  simp [tcpPadded]
  omega

theorem tcpDecode_fits (p : Params) {B : Bytes} (h : B.length ≤ p.maxOperandBytes) :
    ResultFits p ((tcpDecode B).map .tcp) := by
  intro v hv
  unfold tcpDecode at hv
  split at hv <;> cases hv
  simp only [Result.byteFields, List.mem_singleton, forall_eq, tcpOptions]
  split
  · exact (slice_length_le ..).trans h
  · exact Nat.zero_le _

theorem udpEncode_fits (p : Params) (scope : CsumScope) (x : FUdp) : ResultFits p ((udpEncode scope x).map .bytes) := by
  have := minOperandBytes_le p
  intro v hv
  unfold udpEncode at hv
  split at hv <;> cases hv
  simp only [Result.byteFields, List.mem_singleton, forall_eq]
  rw [patch16_length (by simp), udpImage_length]
  omega

theorem udpDecode_fits (p : Params) {B : Bytes} (h : B.length ≤ p.maxOperandBytes) :
    ResultFits p ((udpDecode B).map .udp) := by
  intro v hv
  unfold udpDecode at hv
  split at hv <;> cases hv
  simpa [Result.byteFields] using (slice_length_le ..).trans h

theorem icmpEncode_fits (p : Params) (x : FIcmp) : ResultFits p ((icmpEncode p x).map .bytes) := by
  intro v hv
  cases h : icmpEncode p x with
  | error e => rw [h] at hv; cases hv
  | ok B =>
    rw [h] at hv
    cases hv
    simpa [Result.byteFields] using (boundedResult_ok h).2

theorem icmpDecode_fits (p : Params) {B : Bytes} (h : B.length ≤ p.maxOperandBytes) :
    ResultFits p ((icmpDecode B).map .icmp) := by
  intro v hv
  unfold icmpDecode at hv
  split at hv <;> cases hv
  simpa [Result.byteFields] using (slice_length_le ..).trans h

theorem map_u16_fits (p : Params) (r : Except ErrorKind (BitVec 16)) : ResultFits p (r.map .u16) :=
  .of_none fun v hv => by cases r <;> cases hv; rfl

/-- Every context-free command is a function of the operand record and the parameters, whose result is within the limit
where the operand is. -/
theorem exec_contextFree {i : Instr} (h : i.context? = none) :
    ∃ run : Params → OperandRecord → Except ErrorKind Result,
      (∀ s : State, exec i s = s.stateless i.format (run s.cfg)) ∧
        ∀ p op, (∀ B ∈ op.byteFields i.format, B.length ≤ p.maxOperandBytes) → ResultFits p (run p op) := by
  have bit : ∀ (p : Params) (v : BitVec 1), ResultFits p (.ok (.u1 v)) := fun p v => .of_none fun _ h => by cases h; rfl
  have sole : ∀ {n : Nat} {B : Bytes}, (∀ C ∈ [B], C.length ≤ n) → B.length ≤ n := fun h => h _ List.mem_cons_self
  cases i with
  | csum => exact ⟨fun _ op => .ok (.u16 (ocsum op.bytes.data)), fun _ => rfl, fun p _ _ => map_u16_fits p (.ok _)⟩
  | tcsum => exact ⟨fun _ op => (transportChecksum op.tcsum).map .u16, fun _ => rfl, fun p _ _ => map_u16_fits p _⟩
  | ethEnc => exact ⟨fun _ op => (ethEncode op.eth).map .bytes, fun _ => rfl, fun p _ _ => ethEncode_fits p _⟩
  | ethDec =>
    exact ⟨fun _ op => (ethDecode op.bytes.data).map .eth, fun _ => rfl, fun p _ h => ethDecode_fits p (sole h)⟩
  | ethIsBcast => exact ⟨fun _ op => .ok (.u1 (ethIsBroadcast op.eth)), fun _ => rfl, fun p _ _ => bit p _⟩
  | ethIsMcast => exact ⟨fun _ op => .ok (.u1 (ethIsMulticast op.eth)), fun _ => rfl, fun p _ _ => bit p _⟩
  | ipEnc => exact ⟨fun _ op => .ok (.bytes (ipEncode op.ip)), fun _ => rfl, fun p _ _ => ipEncode_fits p _⟩
  | ipDec => exact ⟨fun _ op => (ipDecode op.bytes.data).map .ip, fun _ => rfl, fun p _ _ => ipDecode_fits p _⟩
  | ipIsFrag => exact ⟨fun _ op => .ok (.u1 (ipIsFragment op.ip)), fun _ => rfl, fun p _ _ => bit p _⟩
  | ipIsFirst => exact ⟨fun _ op => .ok (.u1 (ipIsFirstFragment op.ip)), fun _ => rfl, fun p _ _ => bit p _⟩
  | tcpEnc => exact ⟨fun _ op => (tcpEncode op.tcp).map .bytes, fun _ => rfl, fun p _ _ => tcpEncode_fits p _⟩
  | tcpDec =>
    exact ⟨fun _ op => (tcpDecode op.bytes.data).map .tcp, fun _ => rfl, fun p _ h => tcpDecode_fits p (sole h)⟩
  | tcpHasFlag m => exact ⟨fun _ op => .ok (.u1 (tcpHasFlags m op.tcp)), fun _ => rfl, fun p _ _ => bit p _⟩
  | udpEnc =>
    exact ⟨fun p op => (udpEncode p.udpCsumScope op.udp).map .bytes, fun _ => rfl, fun p _ _ => udpEncode_fits p _ _⟩
  | udpDec =>
    exact ⟨fun _ op => (udpDecode op.bytes.data).map .udp, fun _ => rfl, fun p _ h => udpDecode_fits p (sole h)⟩
  | icmpEnc => exact ⟨fun p op => (icmpEncode p op.icmp).map .bytes, fun _ => rfl, fun p _ _ => icmpEncode_fits p _⟩
  | icmpDec =>
    exact ⟨fun _ op => (icmpDecode op.bytes.data).map .icmp, fun _ => rfl, fun p _ h => icmpDecode_fits p (sole h)⟩
  | icmpIsReq => exact ⟨fun _ op => .ok (.u1 (icmpIsRequest op.icmp)), fun _ => rfl, fun p _ _ => bit p _⟩
  | icmpIsRep => exact ⟨fun _ op => .ok (.u1 (icmpIsReply op.icmp)), fun _ => rfl, fun p _ _ => bit p _⟩
  | icmpReply =>
    refine ⟨fun _ op => .ok (.icmp (icmpReplyTo op.icmp)), fun _ => rfl, fun p op h => ?_⟩
    rintro v ⟨⟩
    exact h
  | connCreate k => cases h
  | connConnect k => cases h
  | connListen k => cases h
  | connSend k => cases h
  | connRecv k => cases h
  | connClose k => cases h
  | connSetCb k e => cases h
  | connRdReg k r => cases h
  | connRdBuf k b => cases h

/-- Every CONN.* command is a function of its context, the operand record, the parameters and the draw. -/
theorem exec_onContext {i : Instr} {k : BitVec 8} (h : i.context? = some k) :
    ∃ run : Params → OperandRecord → BitVec 32 → Conn → Except ErrorKind Done,
      ∀ s : State, exec i s = s.onContext k i.format (run s.cfg s.op s.isn) := by
  cases i with
  | csum => cases h
  | tcsum => cases h
  | ethEnc => cases h
  | ethDec => cases h
  | ethIsBcast => cases h
  | ethIsMcast => cases h
  | ipEnc => cases h
  | ipDec => cases h
  | ipIsFrag => cases h
  | ipIsFirst => cases h
  | tcpEnc => cases h
  | tcpDec => cases h
  | tcpHasFlag m => cases h
  | udpEnc => cases h
  | udpDec => cases h
  | icmpEnc => cases h
  | icmpDec => cases h
  | icmpIsReq => cases h
  | icmpIsRep => cases h
  | icmpReply => cases h
  | connCreate k =>
    cases h
    exact ⟨fun p op _ _ => .ok { conn := connCreated p op.create }, fun _ => rfl⟩
  | connConnect k =>
    cases h
    exact ⟨fun p _ isn => connConnected p isn, fun _ => rfl⟩
  | connListen k =>
    cases h
    exact ⟨fun _ _ _ c => .ok (connListening c), fun _ => rfl⟩
  | connSend k =>
    cases h
    exact ⟨fun p op _ => connSent p op.bytes.data, fun _ => rfl⟩
  | connRecv k =>
    cases h
    exact ⟨fun p op _ => connReceived p op.bytes.data, fun _ => rfl⟩
  | connClose k =>
    cases h
    exact ⟨fun _ _ _ c => .ok (connClosed c), fun _ => rfl⟩
  | connSetCb k e =>
    cases h
    exact ⟨fun _ _ _ c => .ok { conn := { c with cbEn := e } }, fun _ => rfl⟩
  | connRdReg k r =>
    cases h
    exact ⟨fun _ _ _ c => .ok { conn := c, result := some (.u32 (c.read r)) }, fun _ => rfl⟩
  | connRdBuf k b =>
    cases h
    exact ⟨fun p _ _ => connBufferRead p b, fun _ => rfl⟩

end Sys2Proof.Machine
end

