-- ==== Sys2Proof/Laws/Exec.lean ====
section
/-! SUPPORT. Everything a command and a step can do, said once: the inversion of each CONN.* command's function, of
`exec` and of `step`. -/

namespace Sys2Proof.Machine

variable {p : Params} {isn : BitVec 32} {data : Bytes} {c : Conn} {d : Done}

theorem connConnected_ok (h : connConnected p isn c = .ok d) :
    c.state = .closed ∧
      d =
        { conn :=
            { c with state := .established, sndSeq := isn + p.pSynAdv.setWidth 32, rcvSeq := isn + 1#32 }
          notes := noteState c.cbEn .established, draws := 1 } := by
  unfold connConnected at h
  split at h
  · cases h
  · rename_i hs
    cases h
    exact ⟨by simpa using hs, rfl⟩

theorem connSent_ok (h : connSent p data c = .ok d) :
    c.state = .established ∧ withinCap p.connBufCap (c.sndBuf.length + data.length) = true ∧
      d = { conn := { c with sndBuf := c.sndBuf ++ data, sndSeq := c.sndSeq + BitVec.ofNat 32 data.length } } := by
  unfold connSent at h
  split at h
  · cases h
  · split at h
    · cases h
    · rename_i hs hw
      cases h
      exact ⟨by simpa using hs, by simpa using hw, rfl⟩

theorem connReceived_ok (h : connReceived p data c = .ok d) :
    withinCap p.connBufCap (c.rcvBuf.length + data.length) = true ∧
      d =
        { conn := { c with rcvBuf := c.rcvBuf ++ data, rcvSeq := c.rcvSeq + BitVec.ofNat 32 data.length }
          notes := noteData c.cbEn data } := by
  unfold connReceived at h
  split at h
  · cases h
  · rename_i hw
    cases h
    exact ⟨by simpa using hw, rfl⟩

theorem connClosed_eq (c : Conn) :
    connClosed c =
      if c.state = .closed then { conn := c }
      else { conn := { c with state := .closed }, notes := noteState c.cbEn .finWait1 } := rfl

theorem connBufferRead_ok {b : BufSel} (h : connBufferRead p b c = .ok d) :
    (c.buffer b).length ≤ p.maxOperandBytes ∧ d = { conn := c, result := some (.bytes (c.buffer b)) } := by
  unfold connBufferRead at h
  cases hb : boundedResult p (c.buffer b) with
  | error e => rw [hb] at h; cases h
  | ok B =>
    rw [hb] at h
    cases h
    obtain ⟨rfl, hl⟩ := boundedResult_ok hb
    exact ⟨hl, rfl⟩

/-- A state notification is there only where CB_EN[0] is 1, and carries the state's code. -/
theorem mem_noteState {cb : BitVec 2} {x : TcpState} {n : Notification} (h : n ∈ noteState cb x) :
    cb.getLsbD 0 = true ∧ n = .stateChange x.code := by
  unfold noteState at h
  split at h <;> simp_all

/-- A data notification is there only where CB_EN[1] is 1, and carries the data. -/
theorem mem_noteData {cb : BitVec 2} {n : Notification} (h : n ∈ noteData cb data) :
    cb.getLsbD 1 = true ∧ n = .dataReceived data := by
  unfold noteData at h
  split at h <;> simp_all

theorem noteState_length_le (cb : BitVec 2) (x : TcpState) : (noteState cb x).length ≤ 1 := by
  unfold noteState
  split <;> simp

theorem noteData_length_le (cb : BitVec 2) (data : Bytes) : (noteData cb data).length ≤ 1 := by
  unfold noteData
  split <;> simp

/-- What CONN.* command `i` on context `k` can do to the contents `c` of the context. -/
inductive ContextEffect (k : BitVec 8) (s : State) (c : Conn) : Instr → Done → Prop
  | create : ContextEffect k s c (.connCreate k) { conn := connCreated s.cfg s.op.create }
  | connect (d : Done) (h : connConnected s.cfg s.isn c = .ok d) : ContextEffect k s c (.connConnect k) d
  | listen : ContextEffect k s c (.connListen k) (connListening c)
  | send (d : Done) (h : connSent s.cfg s.op.bytes.data c = .ok d) : ContextEffect k s c (.connSend k) d
  | recv (d : Done) (h : connReceived s.cfg s.op.bytes.data c = .ok d) : ContextEffect k s c (.connRecv k) d
  | close : ContextEffect k s c (.connClose k) (connClosed c)
  | setCb (e : BitVec 2) : ContextEffect k s c (.connSetCb k e) { conn := { c with cbEn := e } }
  | rdReg (r : Reg) : ContextEffect k s c (.connRdReg k r) { conn := c, result := some (.u32 (c.read r)) }
  | rdBuf (b : BufSel) (h : (c.buffer b).length ≤ s.cfg.maxOperandBytes) :
    ContextEffect k s c (.connRdBuf k b) { conn := c, result := some (.bytes (c.buffer b)) }

/-- What command `i` can do at `s`: the next state and the response it returns. Where it ends OK, its operands and its
result are within the limit of MAX_OPERAND_BYTES. -/
inductive Effect (i : Instr) (s : State) : State → Response → Prop
  | failed (e : ErrorKind) : Effect i s (s.respond (.failure e)) (.failure e)
  | pure (r : Result) (h : i.context? = none) (hr : ∀ B ∈ r.byteFields, B.length ≤ s.cfg.maxOperandBytes) :
    Effect i s (s.respond (.success (some r) [])) (.success (some r) [])
  | onContext (k : BitVec 8) (c : Conn) (d : Done) (hk : i.context? = some k) (hc : s.conn? k = some c)
    (ho : ∀ B ∈ s.op.byteFields i.format, B.length ≤ s.cfg.maxOperandBytes) (h : ContextEffect k s c i d) :
    Effect i s (((s.setConn k d.conn).advanceDraws d.draws).respond (.success d.result d.notes))
      (.success d.result d.notes)

/-- A command run by `onContext` has an effect. -/
theorem effect_of_onContext {i : Instr} {s : State} {k : BitVec 8} {run : Conn → Except ErrorKind Done}
    (hk : i.context? = some k) (h : exec i s = s.onContext k i.format run)
    (hd : ∀ c d, s.conn? k = some c → run c = .ok d → ContextEffect k s c i d) :
    ∃ t r, exec i s = .next t ∧ Effect i s t r := by
  rw [h]
  rcases State.onContext_next s k i.format run with ⟨e, h'⟩ | ⟨c, d, hc, ho, hr, h'⟩
  · exact ⟨_, _, h', .failed e⟩
  · exact ⟨_, _, h', .onContext k c d hk hc ho (hd c d hc hr)⟩

/-- Every command answers a next state, and its effect is one of `Effect`. -/
theorem exec_effect (i : Instr) (s : State) : ∃ t r, exec i s = .next t ∧ Effect i s t r := by
  cases hk : i.context? with
  | none =>
    obtain ⟨run, hrun, hfit⟩ := exec_contextFree hk
    rw [hrun]
    rcases State.stateless_next s i.format (run s.cfg) with ⟨e, h⟩ | ⟨r, ho, hr, h⟩
    · exact ⟨_, _, h, .failed e⟩
    · exact ⟨_, _, h, .pure r hk (hfit _ _ ho _ hr)⟩
  | some k =>
    cases i with
    | connCreate k' =>
      cases hk
      exact effect_of_onContext (run := fun _ => .ok { conn := connCreated s.cfg s.op.create }) rfl rfl
        fun c d _ h => by cases h; exact .create
    | connConnect k' =>
      cases hk
      exact effect_of_onContext (run := connConnected s.cfg s.isn) rfl rfl fun c d _ h => .connect d h
    | connListen k' =>
      cases hk
      exact effect_of_onContext (run := fun c => .ok (connListening c)) rfl rfl
        fun c d _ h => by cases h; exact .listen
    | connSend k' =>
      cases hk
      exact effect_of_onContext (run := connSent s.cfg s.op.bytes.data) rfl rfl
        fun c d _ h => .send d h
    | connRecv k' =>
      cases hk
      exact effect_of_onContext (run := connReceived s.cfg s.op.bytes.data) rfl rfl
        fun c d _ h => .recv d h
    | connClose k' =>
      cases hk
      exact effect_of_onContext (run := fun c => .ok (connClosed c)) rfl rfl
        fun c d _ h => by cases h; exact .close
    | connSetCb k' e =>
      cases hk
      exact effect_of_onContext (run := fun c => .ok { conn := { c with cbEn := e } }) rfl rfl
        fun c d _ h => by cases h; exact .setCb e
    | connRdReg k' r =>
      cases hk
      exact effect_of_onContext (run := fun c => .ok { conn := c, result := some (.u32 (c.read r)) }) rfl rfl
        fun c d _ h => by cases h; exact .rdReg r
    | connRdBuf k' b =>
      cases hk
      exact effect_of_onContext (run := connBufferRead s.cfg b) rfl rfl
        fun c d _ h => by obtain ⟨hl, rfl⟩ := connBufferRead_ok h; exact .rdBuf b hl
    | csum => cases hk
    | tcsum => cases hk
    | ethEnc => cases hk
    | ethDec => cases hk
    | ethIsBcast => cases hk
    | ethIsMcast => cases hk
    | ipEnc => cases hk
    | ipDec => cases hk
    | ipIsFrag => cases hk
    | ipIsFirst => cases hk
    | tcpEnc => cases hk
    | tcpDec => cases hk
    | tcpHasFlag m => cases hk
    | udpEnc => cases hk
    | udpDec => cases hk
    | icmpEnc => cases hk
    | icmpDec => cases hk
    | icmpIsReq => cases hk
    | icmpIsRep => cases hk
    | icmpReply => cases hk

/-- The effect of a command whose next state is known. -/
theorem effect_of_exec {i : Instr} {s t : State} (h : exec i s = .next t) : ∃ r, Effect i s t r := by
  obtain ⟨t', r, h', he⟩ := exec_effect i s
  rw [h] at h'
  cases h'
  exact ⟨r, he⟩

/-- What a step can do: nothing where no command is presented, one Illegal response for a word that decodes to no command,
one command otherwise. -/
theorem step_cases {s t : State} (h : step s = .next t) :
    (s.pending = [] ∧ t = s) ∨
      ∃ c rest, s.pending = c :: rest ∧
        (((∃ e, decode c.word = .error e) ∧ t = (s.accept c rest).respond (.failure .illegal)) ∨
          ∃ i, decode c.word = .ok i ∧ exec i (s.accept c rest) = .next t) := by
  simp only [step, State.performNext] at h
  split at h
  · cases h
    exact .inl ⟨‹_›, rfl⟩
  · rename_i c rest hp
    refine .inr ⟨c, rest, hp, ?_⟩
    unfold State.perform at h
    split at h
    · rename_i e he
      cases h
      exact .inl ⟨⟨e, he⟩, rfl⟩
    · exact .inr ⟨_, ‹_›, h⟩

end Sys2Proof.Machine
end

