-- ==== Sys2Proof/Laws/PerInstr.lean ====
section
/-! SUPPORT. One statement about every command as syntax, with one lemma per constructor: its word has the fixed bits
that the command's row of spec/opcode_table.json gives, and its operand record the row's format. -/

namespace Sys2Proof.Laws

/-- A row of the opcode table: the mask of its fixed bits, their value, its format. -/
structure TableRow where
  mask : Word
  value : Word
  format : Format

/-- The row of a command, copied from spec/opcode_table.json. -/
def tableRow : Instr → TableRow
  | .csum => ⟨0xFFFFFFFF#32, 0x00000001#32, .bytes⟩
  | .tcsum => ⟨0xFFFFFFFF#32, 0x00000002#32, .tcsum⟩
  | .ethEnc => ⟨0xFFFFFFFF#32, 0x00000010#32, .eth⟩
  | .ethDec => ⟨0xFFFFFFFF#32, 0x00000011#32, .bytes⟩
  | .ethIsBcast => ⟨0xFFFFFFFF#32, 0x00000012#32, .eth⟩
  | .ethIsMcast => ⟨0xFFFFFFFF#32, 0x00000013#32, .eth⟩
  | .ipEnc => ⟨0xFFFFFFFF#32, 0x00000020#32, .ip⟩
  | .ipDec => ⟨0xFFFFFFFF#32, 0x00000021#32, .bytes⟩
  | .ipIsFrag => ⟨0xFFFFFFFF#32, 0x00000022#32, .ip⟩
  | .ipIsFirst => ⟨0xFFFFFFFF#32, 0x00000023#32, .ip⟩
  | .tcpEnc => ⟨0xFFFFFFFF#32, 0x00000030#32, .tcp⟩
  | .tcpDec => ⟨0xFFFFFFFF#32, 0x00000031#32, .bytes⟩
  | .tcpHasFlag _ => ⟨0xFFFFC0FF#32, 0x00000032#32, .tcp⟩
  | .udpEnc => ⟨0xFFFFFFFF#32, 0x00000040#32, .udp⟩
  | .udpDec => ⟨0xFFFFFFFF#32, 0x00000041#32, .bytes⟩
  | .icmpEnc => ⟨0xFFFFFFFF#32, 0x00000050#32, .icmp⟩
  | .icmpDec => ⟨0xFFFFFFFF#32, 0x00000051#32, .bytes⟩
  | .icmpIsReq => ⟨0xFFFFFFFF#32, 0x00000052#32, .icmp⟩
  | .icmpIsRep => ⟨0xFFFFFFFF#32, 0x00000053#32, .icmp⟩
  | .icmpReply => ⟨0xFFFFFFFF#32, 0x00000054#32, .icmp⟩
  | .connCreate _ => ⟨0xFF00FFFF#32, 0x00000060#32, .create⟩
  | .connConnect _ => ⟨0xFF00FFFF#32, 0x00000061#32, .none⟩
  | .connListen _ => ⟨0xFF00FFFF#32, 0x00000062#32, .none⟩
  | .connSend _ => ⟨0xFF00FFFF#32, 0x00000063#32, .bytes⟩
  | .connRecv _ => ⟨0xFF00FFFF#32, 0x00000064#32, .bytes⟩
  | .connClose _ => ⟨0xFF00FFFF#32, 0x00000065#32, .none⟩
  | .connSetCb _ _ => ⟨0xFF00FCFF#32, 0x00000066#32, .none⟩
  | .connRdReg _ _ => ⟨0xFF0000FF#32, 0x00000067#32, .none⟩
  | .connRdBuf _ _ => ⟨0xFF00FEFF#32, 0x00000068#32, .none⟩

/-- The table family: the command's word shows its row's fixed bits, and its record has the row's format. -/
def TableFamily.Statement (i : Instr) : Prop :=
  encode i &&& (tableRow i).mask = (tableRow i).value ∧ i.format = (tableRow i).format

/-- Masking a command word masks its fields. -/
theorem commandWord_and (c a o cm am om rm : BitVec 8) :
    commandWord c a o &&& (rm ++ cm ++ am ++ om) = commandWord (c &&& cm) (a &&& am) (o &&& om) := by
  have h : ((0#8 &&& rm) ++ (c &&& cm) ++ (a &&& am) ++ (o &&& om) : BitVec (8 + 8 + 8 + 8)) =
      (0#8 ++ c ++ a ++ o) &&& (rm ++ cm ++ am ++ om) := by
    simp only [BitVec.and_append]
  rw [BitVec.zero_and] at h
  exact h.symm

theorem TableFamily.csum : TableFamily.Statement .csum := ⟨by decide, rfl⟩

theorem TableFamily.tcsum : TableFamily.Statement .tcsum := ⟨by decide, rfl⟩

theorem TableFamily.ethEnc : TableFamily.Statement .ethEnc := ⟨by decide, rfl⟩

theorem TableFamily.ethDec : TableFamily.Statement .ethDec := ⟨by decide, rfl⟩

theorem TableFamily.ethIsBcast : TableFamily.Statement .ethIsBcast := ⟨by decide, rfl⟩

theorem TableFamily.ethIsMcast : TableFamily.Statement .ethIsMcast := ⟨by decide, rfl⟩

theorem TableFamily.ipEnc : TableFamily.Statement .ipEnc := ⟨by decide, rfl⟩

theorem TableFamily.ipDec : TableFamily.Statement .ipDec := ⟨by decide, rfl⟩

theorem TableFamily.ipIsFrag : TableFamily.Statement .ipIsFrag := ⟨by decide, rfl⟩

theorem TableFamily.ipIsFirst : TableFamily.Statement .ipIsFirst := ⟨by decide, rfl⟩

theorem TableFamily.tcpEnc : TableFamily.Statement .tcpEnc := ⟨by decide, rfl⟩

theorem TableFamily.tcpDec : TableFamily.Statement .tcpDec := ⟨by decide, rfl⟩

theorem TableFamily.tcpHasFlag (m : BitVec 6) : TableFamily.Statement (.tcpHasFlag m) :=
  ⟨by revert m; decide, rfl⟩

theorem TableFamily.udpEnc : TableFamily.Statement .udpEnc := ⟨by decide, rfl⟩

theorem TableFamily.udpDec : TableFamily.Statement .udpDec := ⟨by decide, rfl⟩

theorem TableFamily.icmpEnc : TableFamily.Statement .icmpEnc := ⟨by decide, rfl⟩

theorem TableFamily.icmpDec : TableFamily.Statement .icmpDec := ⟨by decide, rfl⟩

theorem TableFamily.icmpIsReq : TableFamily.Statement .icmpIsReq := ⟨by decide, rfl⟩

theorem TableFamily.icmpIsRep : TableFamily.Statement .icmpIsRep := ⟨by decide, rfl⟩

theorem TableFamily.icmpReply : TableFamily.Statement .icmpReply := ⟨by decide, rfl⟩

theorem TableFamily.connCreate (k : BitVec 8) : TableFamily.Statement (.connCreate k) := by
  refine ⟨(commandWord_and k 0#8 0x60#8 0x00#8 0xFF#8 0xFF#8 0xFF#8).trans ?_, rfl⟩
  rw [BitVec.and_zero, tableRow]
  decide

theorem TableFamily.connConnect (k : BitVec 8) : TableFamily.Statement (.connConnect k) := by
  refine ⟨(commandWord_and k 0#8 0x61#8 0x00#8 0xFF#8 0xFF#8 0xFF#8).trans ?_, rfl⟩
  rw [BitVec.and_zero, tableRow]
  decide

theorem TableFamily.connListen (k : BitVec 8) : TableFamily.Statement (.connListen k) := by
  refine ⟨(commandWord_and k 0#8 0x62#8 0x00#8 0xFF#8 0xFF#8 0xFF#8).trans ?_, rfl⟩
  rw [BitVec.and_zero, tableRow]
  decide

theorem TableFamily.connSend (k : BitVec 8) : TableFamily.Statement (.connSend k) := by
  refine ⟨(commandWord_and k 0#8 0x63#8 0x00#8 0xFF#8 0xFF#8 0xFF#8).trans ?_, rfl⟩
  rw [BitVec.and_zero, tableRow]
  decide

theorem TableFamily.connRecv (k : BitVec 8) : TableFamily.Statement (.connRecv k) := by
  refine ⟨(commandWord_and k 0#8 0x64#8 0x00#8 0xFF#8 0xFF#8 0xFF#8).trans ?_, rfl⟩
  rw [BitVec.and_zero, tableRow]
  decide

theorem TableFamily.connClose (k : BitVec 8) : TableFamily.Statement (.connClose k) := by
  refine ⟨(commandWord_and k 0#8 0x65#8 0x00#8 0xFF#8 0xFF#8 0xFF#8).trans ?_, rfl⟩
  rw [BitVec.and_zero, tableRow]
  decide

theorem TableFamily.connSetCb (k : BitVec 8) (e : BitVec 2) : TableFamily.Statement (.connSetCb k e) := by
  refine ⟨(commandWord_and k (0#6 ++ e) 0x66#8 0x00#8 0xFC#8 0xFF#8 0xFF#8).trans ?_, rfl⟩
  rw [BitVec.and_zero, tableRow]
  revert e
  decide

theorem TableFamily.connRdReg (k : BitVec 8) (r : Reg) : TableFamily.Statement (.connRdReg k r) := by
  refine ⟨(commandWord_and k r.number 0x67#8 0x00#8 0x00#8 0xFF#8 0xFF#8).trans ?_, rfl⟩
  rw [BitVec.and_zero, tableRow]
  cases r <;> decide

theorem TableFamily.connRdBuf (k : BitVec 8) (b : BufSel) : TableFamily.Statement (.connRdBuf k b) := by
  refine ⟨(commandWord_and k (0#7 ++ b.bit) 0x68#8 0x00#8 0xFE#8 0xFF#8 0xFF#8).trans ?_, rfl⟩
  rw [BitVec.and_zero, tableRow]
  cases b <;> decide

end Sys2Proof.Laws
end

