-- ==== Sys2Proof/Machine/Assembler.lean ====
section
/-! DEFINITION. The assembler language of 30_encoding.md R101 and R102, from its parsed lines on: a line names an opcode,
a context, an argument and field values, and stands for one command. No step uses this file. -/

namespace Sys2Proof.Machine

/-! ## Names -/

/-- The mnemonics of R84. -/
def mnemonic : Opcode → String
  | .csum => "CSUM"
  | .tcsum => "TCSUM"
  | .ethEnc => "ETH.ENC"
  | .ethDec => "ETH.DEC"
  | .ethIsBcast => "ETH.ISBCAST"
  | .ethIsMcast => "ETH.ISMCAST"
  | .ipEnc => "IP.ENC"
  | .ipDec => "IP.DEC"
  | .ipIsFrag => "IP.ISFRAG"
  | .ipIsFirst => "IP.ISFIRST"
  | .tcpEnc => "TCP.ENC"
  | .tcpDec => "TCP.DEC"
  | .tcpHasFlag => "TCP.HASFLAG"
  | .udpEnc => "UDP.ENC"
  | .udpDec => "UDP.DEC"
  | .icmpEnc => "ICMP.ENC"
  | .icmpDec => "ICMP.DEC"
  | .icmpIsReq => "ICMP.ISREQ"
  | .icmpIsRep => "ICMP.ISREP"
  | .icmpReply => "ICMP.REPLY"
  | .connCreate => "CONN.CREATE"
  | .connConnect => "CONN.CONNECT"
  | .connListen => "CONN.LISTEN"
  | .connSend => "CONN.SEND"
  | .connRecv => "CONN.RECV"
  | .connClose => "CONN.CLOSE"
  | .connSetCb => "CONN.SETCB"
  | .connRdReg => "CONN.RDREG"
  | .connRdBuf => "CONN.RDBUF"

/-- The TCP flags of R95. -/
inductive TcpFlag where
  | fin | syn | rst | psh | ack | urg
  deriving DecidableEq, Repr

/-- The mask of a TCP flag (R95). -/
def TcpFlag.mask : TcpFlag → BitVec 6
  | .fin => 0x01#6
  | .syn => 0x02#6
  | .rst => 0x04#6
  | .psh => 0x08#6
  | .ack => 0x10#6
  | .urg => 0x20#6

/-- The callback slots of 10_state.md R34, as CONN.SETCB's argument spells them. -/
inductive Slot where
  | state | data
  deriving DecidableEq, Repr

/-- The CB_EN bit of a slot (R34). -/
def Slot.mask : Slot → BitVec 2
  | .state => 0b01#2
  | .data => 0b10#2

/-- The field names of R82; `ftype` is the name `type`. -/
inductive FieldName where
  | data
  | header | payload | srcAddr | dstAddr | proto
  | dst | src | ftype
  | version | ihl | tos | totalLen | id | flags | fragOff | ttl | checksum
  | srcPort | dstPort | seq | ack | dataOff | window | urgent | options
  | length
  | code
  | localAddr | localPort | remoteAddr | remotePort
  deriving DecidableEq, Repr

/-! ## Lines -/

/-- ARGVALUE of R101. -/
inductive ArgValue where
  /-- A flag expression such as SYN|ACK, for TCP.HASFLAG. -/
  | flags (fs : List TcpFlag)
  /-- A number, for CONN.SETCB. -/
  | number (n : Nat)
  /-- STATE|DATA or a part of it, for CONN.SETCB. -/
  | slots (ss : List Slot)
  /-- A register name, for CONN.RDREG. -/
  | reg (r : Reg)
  /-- SND or RCV, for CONN.RDBUF. -/
  | buf (b : BufSel)
  deriving DecidableEq, Repr

/-- The value of a field assignment: an integer, or a Bytes value in either spelling of R101. -/
inductive FieldValue where
  | int (n : Nat)
  | seq (b : Bytes)
  deriving DecidableEq, Repr

/-- `MNEMONIC [cK] [, ARGVALUE] [, field=value]...` -/
structure AsmLine where
  op : Opcode
  ctx : Option Nat := none
  arg : Option ArgValue := none
  fields : List (FieldName × FieldValue) := []
  deriving DecidableEq, Repr

/-! ## Fields -/

/-- An integer value of a uN field; one outside the width cannot be expressed (00_scope.md R8). -/
def FieldValue.uint (n : Nat) : FieldValue → Option (BitVec n)
  | .int v => if v < 2 ^ n then some (BitVec.ofNat n v) else none
  | .seq _ => none

/-- The value of a Bytes field. -/
def FieldValue.bytes : FieldValue → Option Bytes
  | .int _ => none
  | .seq b => some b

def FBytes.assign (x : FBytes) (v : FieldValue) : FieldName → Option FBytes
  | .data => v.bytes.map fun b => { x with data := b }
  | _ => none

def FTcsum.assign (x : FTcsum) (v : FieldValue) : FieldName → Option FTcsum
  | .header => v.bytes.map fun b => { x with header := b }
  | .payload => v.bytes.map fun b => { x with payload := b }
  | .srcAddr => (v.uint 32).map fun n => { x with srcAddr := n }
  | .dstAddr => (v.uint 32).map fun n => { x with dstAddr := n }
  | .proto => (v.uint 8).map fun n => { x with proto := n }
  | _ => none

def FEth.assign (x : FEth) (v : FieldValue) : FieldName → Option FEth
  | .dst => (v.uint 48).map fun n => { x with dst := n }
  | .src => (v.uint 48).map fun n => { x with src := n }
  | .ftype => (v.uint 16).map fun n => { x with etype := n }
  | .payload => v.bytes.map fun b => { x with payload := b }
  | _ => none

def FIp.assign (x : FIp) (v : FieldValue) : FieldName → Option FIp
  | .version => (v.uint 4).map fun n => { x with version := n }
  | .ihl => (v.uint 4).map fun n => { x with ihl := n }
  | .tos => (v.uint 8).map fun n => { x with tos := n }
  | .totalLen => (v.uint 16).map fun n => { x with totalLen := n }
  | .id => (v.uint 16).map fun n => { x with id := n }
  | .flags => (v.uint 3).map fun n => { x with flags := n }
  | .fragOff => (v.uint 13).map fun n => { x with fragOff := n }
  | .ttl => (v.uint 8).map fun n => { x with ttl := n }
  | .proto => (v.uint 8).map fun n => { x with proto := n }
  | .checksum => (v.uint 16).map fun n => { x with checksum := n }
  | .src => (v.uint 32).map fun n => { x with src := n }
  | .dst => (v.uint 32).map fun n => { x with dst := n }
  | _ => none

def FTcp.assign (x : FTcp) (v : FieldValue) : FieldName → Option FTcp
  | .srcPort => (v.uint 16).map fun n => { x with srcPort := n }
  | .dstPort => (v.uint 16).map fun n => { x with dstPort := n }
  | .seq => (v.uint 32).map fun n => { x with seq := n }
  | .ack => (v.uint 32).map fun n => { x with ack := n }
  | .dataOff => (v.uint 4).map fun n => { x with dataOff := n }
  | .flags => (v.uint 6).map fun n => { x with flags := n }
  | .window => (v.uint 16).map fun n => { x with window := n }
  | .checksum => (v.uint 16).map fun n => { x with checksum := n }
  | .urgent => (v.uint 16).map fun n => { x with urgent := n }
  | .options => v.bytes.map fun b => { x with options := b }
  | _ => none

def FUdp.assign (x : FUdp) (v : FieldValue) : FieldName → Option FUdp
  | .srcPort => (v.uint 16).map fun n => { x with srcPort := n }
  | .dstPort => (v.uint 16).map fun n => { x with dstPort := n }
  | .length => (v.uint 16).map fun n => { x with length := n }
  | .checksum => (v.uint 16).map fun n => { x with checksum := n }
  | .payload => v.bytes.map fun b => { x with payload := b }
  | _ => none

def FIcmp.assign (x : FIcmp) (v : FieldValue) : FieldName → Option FIcmp
  | .ftype => (v.uint 8).map fun n => { x with itype := n }
  | .code => (v.uint 8).map fun n => { x with code := n }
  | .checksum => (v.uint 16).map fun n => { x with checksum := n }
  | .id => (v.uint 16).map fun n => { x with id := n }
  | .seq => (v.uint 16).map fun n => { x with seq := n }
  | .payload => v.bytes.map fun b => { x with payload := b }
  | _ => none

def FCreate.assign (x : FCreate) (v : FieldValue) : FieldName → Option FCreate
  | .localAddr => (v.uint 32).map fun n => { x with localAddr := n }
  | .localPort => (v.uint 16).map fun n => { x with localPort := n }
  | .remoteAddr => (v.uint 32).map fun n => { x with remoteAddr := n }
  | .remotePort => (v.uint 16).map fun n => { x with remotePort := n }
  | _ => none

/-- One assignment `field=value`: it sets the field of the opcode's own format, and no other name is a field of it. -/
def OperandRecord.assign (f : Format) (op : OperandRecord) (a : FieldName × FieldValue) : Option OperandRecord :=
  match f with
  | .none => none
  | .bytes => (op.bytes.assign a.2 a.1).map fun x => { op with bytes := x }
  | .tcsum => (op.tcsum.assign a.2 a.1).map fun x => { op with tcsum := x }
  | .eth => (op.eth.assign a.2 a.1).map fun x => { op with eth := x }
  | .ip => (op.ip.assign a.2 a.1).map fun x => { op with ip := x }
  | .tcp => (op.tcp.assign a.2 a.1).map fun x => { op with tcp := x }
  | .udp => (op.udp.assign a.2 a.1).map fun x => { op with udp := x }
  | .icmp => (op.icmp.assign a.2 a.1).map fun x => { op with icmp := x }
  | .create => (op.create.assign a.2 a.1).map fun x => { op with create := x }

/-! ## Commands -/

/-- The command an opcode, a context and an ARGVALUE spell: the context stands with CONN.* opcodes only, the ARGVALUE with
the four opcodes that use ARG only. -/
def spelledCommand (o : Opcode) (ctx : Option (BitVec 8)) (arg : Option ArgValue) : Option Instr :=
  match o, ctx, arg with
  | .csum, none, none => some .csum
  | .tcsum, none, none => some .tcsum
  | .ethEnc, none, none => some .ethEnc
  | .ethDec, none, none => some .ethDec
  | .ethIsBcast, none, none => some .ethIsBcast
  | .ethIsMcast, none, none => some .ethIsMcast
  | .ipEnc, none, none => some .ipEnc
  | .ipDec, none, none => some .ipDec
  | .ipIsFrag, none, none => some .ipIsFrag
  | .ipIsFirst, none, none => some .ipIsFirst
  | .tcpEnc, none, none => some .tcpEnc
  | .tcpDec, none, none => some .tcpDec
  | .tcpHasFlag, none, some (.flags fs) => some (.tcpHasFlag (fs.foldl (fun m f => m ||| f.mask) 0#6))
  | .udpEnc, none, none => some .udpEnc
  | .udpDec, none, none => some .udpDec
  | .icmpEnc, none, none => some .icmpEnc
  | .icmpDec, none, none => some .icmpDec
  | .icmpIsReq, none, none => some .icmpIsReq
  | .icmpIsRep, none, none => some .icmpIsRep
  | .icmpReply, none, none => some .icmpReply
  | .connCreate, some k, none => some (.connCreate k)
  | .connConnect, some k, none => some (.connConnect k)
  | .connListen, some k, none => some (.connListen k)
  | .connSend, some k, none => some (.connSend k)
  | .connRecv, some k, none => some (.connRecv k)
  | .connClose, some k, none => some (.connClose k)
  | .connSetCb, some k, some (.number n) => if n < 4 then some (.connSetCb k (BitVec.ofNat 2 n)) else none
  | .connSetCb, some k, some (.slots ss) => some (.connSetCb k (ss.foldl (fun e s => e ||| s.mask) 0#2))
  | .connRdReg, some k, some (.reg r) => some (.connRdReg k r)
  | .connRdBuf, some k, some (.buf b) => some (.connRdBuf k b)
  | _, _, _ => none

/-- The context number cK of a line; one past 255 has no CTX field. -/
def contextNumber : Option Nat → Option (Option (BitVec 8))
  | none => some none
  | some k => if k < 256 then some (some (BitVec.ofNat 8 k)) else none

/-- The command an assembler line stands for (R101), none for a line that is no command. Fields not assigned are 0 or
empty. -/
def AsmLine.assemble (l : AsmLine) : Option Command := do
  let ctx ← contextNumber l.ctx
  let i ← spelledCommand l.op ctx l.arg
  let op ← l.fields.foldlM (OperandRecord.assign i.format) {}
  some { word := encode i, op := op }

/-! ## Pseudo-instructions (R102) -/

inductive Pseudo where
  /-- CONN.RESET cK. -/
  | connReset (k : Nat)
  /-- CB.ALL cK. -/
  | cbAll (k : Nat)
  /-- CB.NONE cK. -/
  | cbNone (k : Nat)
  /-- CSUM.ZERO data=B; the host tests the result for 0x0000. -/
  | csumZero (b : Bytes)
  deriving DecidableEq, Repr

/-- The line a pseudo-instruction stands for. -/
def Pseudo.expand : Pseudo → AsmLine
  | .connReset k =>
    { op := .connCreate
      ctx := some k
      fields := [(.localAddr, .int 0), (.localPort, .int 0), (.remoteAddr, .int 0), (.remotePort, .int 0)] }
  | .cbAll k => { op := .connSetCb, ctx := some k, arg := some (.number 3) }
  | .cbNone k => { op := .connSetCb, ctx := some k, arg := some (.number 0) }
  | .csumZero b => { op := .csum, fields := [(.data, .seq b)] }

end Sys2Proof.Machine
end

