-- ==== Sys2Proof/Tests/Slice0.lean ====
section
/-! SUPPORT. Tests. Part 1: ill-formed commands are refused. Part 2: command words written out from the encoding tables
of 30_encoding.md. Part 3: one step each, with the expected values of 95_test_vectors.md. Part 4: the assembler lines of
30_encoding.md R101 and R102. Part 5: a witness for the hypotheses of each obligation that has some. -/

namespace Sys2Proof.Tests

open Sys2Proof.Machine

/-! ## Helpers -/

def bs (l : List Nat) : Bytes := l.map (BitVec.ofNat 8)

def params (cap : Option Nat) (scope : CsumScope) : Params where
  extraOperandBytes := 0
  connBufCap := cap
  initSndSeq := 0x11111111#32
  initRcvSeq := 0x22222222#32
  initSndWnd := 3#32
  initRcvWnd := 4#32
  initCwnd := 5#32
  initSsthresh := 6#32
  pSynAdv := 1#1
  udpCsumScope := scope

/-- A context in a state, with notification slots and buffers. -/
def conn (st : TcpState) (cb : BitVec 2) (snd rcv : Bytes) : Conn :=
  { Conn.reset (params none .hdrPayload) with
    state := st, cbEn := cb, sndBuf := snd, rcvBuf := rcv, sndSeq := 0xFFFFFFFE#32, rcvSeq := 0xFFFFFFFE#32 }

/-- A block with the given contexts, CONN_BUF_CAP and operand record. -/
def block (cs : List Conn) (cap : Option Nat) (op : OperandRecord) : State where
  conns := cs
  pending := []
  op := op
  responses := []
  cfg := params cap .hdrPayload
  draws := 0

/-- A block with one closed context, for the context-free commands. -/
def codec (op : OperandRecord) : State := block [conn .closed 0#2 [] []] none op

def onBytes (l : List Nat) : State := codec { bytes := { data := bs l } }

/-- The last response of an answer. -/
def reply : Answer → Option Response
  | .next t => t.responses.getLast?
  | .fault _ => none
  | .refused _ => none

/-- Context 0 of an answer. -/
def after : Answer → Option Conn
  | .next t => t.conn? 0#8
  | .fault _ => none
  | .refused _ => none

def ok (r : Result) : Option Response := some { status := .ok, result := some r, notes := [] }

def done (notes : List Notification) : Option Response := some { status := .ok, result := none, notes := notes }

def err (e : ErrorKind) : Option Response := some { status := .error e, result := none, notes := [] }

/-! ## Part 1: ill-formed commands -/

/-- R85(d): a context the block does not have. -/
theorem test_illformed_context :
    Instr.wellFormed 1 (.connCreate 1#8) = false ∧ Instr.wellFormed 1 (.connConnect 1#8) = false ∧
    Instr.wellFormed 1 (.connListen 255#8) = false ∧ Instr.wellFormed 4 (.connSend 4#8) = false ∧
    Instr.wellFormed 4 (.connRecv 4#8) = false ∧ Instr.wellFormed 4 (.connClose 5#8) = false ∧
    Instr.wellFormed 4 (.connSetCb 4#8 3#2) = false ∧ Instr.wellFormed 255 (.connRdReg 255#8 .state) = false ∧
    Instr.wellFormed 255 (.connRdBuf 255#8 .rcv) = false := by decide

theorem test_wellformed_context :
    Instr.wellFormed 1 (.connCreate 0#8) = true ∧ Instr.wellFormed 256 (.connClose 255#8) = true ∧
    Instr.wellFormed 1 .csum = true := by decide

/-! ## Part 2: words -/

theorem test_words_checksum_ethernet :
    decode 0b00000000000000000000000000000001#32 = .ok .csum ∧
    decode 0b00000000000000000000000000000010#32 = .ok .tcsum ∧
    decode 0b00000000000000000000000000010000#32 = .ok .ethEnc ∧
    decode 0b00000000000000000000000000010001#32 = .ok .ethDec ∧
    decode 0b00000000000000000000000000010010#32 = .ok .ethIsBcast ∧
    decode 0b00000000000000000000000000010011#32 = .ok .ethIsMcast := by decide

theorem test_words_ip_tcp :
    decode 0b00000000000000000000000000100000#32 = .ok .ipEnc ∧
    decode 0b00000000000000000000000000100001#32 = .ok .ipDec ∧
    decode 0b00000000000000000000000000100010#32 = .ok .ipIsFrag ∧
    decode 0b00000000000000000000000000100011#32 = .ok .ipIsFirst ∧
    decode 0b00000000000000000000000000110000#32 = .ok .tcpEnc ∧
    decode 0b00000000000000000000000000110001#32 = .ok .tcpDec ∧
    decode 0b00000000000000000010000100110010#32 = .ok (.tcpHasFlag 0b100001#6) := by decide

theorem test_words_udp_icmp :
    decode 0b00000000000000000000000001000000#32 = .ok .udpEnc ∧
    decode 0b00000000000000000000000001000001#32 = .ok .udpDec ∧
    decode 0b00000000000000000000000001010000#32 = .ok .icmpEnc ∧
    decode 0b00000000000000000000000001010001#32 = .ok .icmpDec ∧
    decode 0b00000000000000000000000001010010#32 = .ok .icmpIsReq ∧
    decode 0b00000000000000000000000001010011#32 = .ok .icmpIsRep ∧
    decode 0b00000000000000000000000001010100#32 = .ok .icmpReply := by decide

theorem test_words_connection :
    decode 0b00000000000001010000000001100000#32 = .ok (.connCreate 5#8) ∧
    decode 0b00000000100000010000000001100001#32 = .ok (.connConnect 0x81#8) ∧
    decode 0b00000000000000100000000001100010#32 = .ok (.connListen 2#8) ∧
    decode 0b00000000000000110000000001100011#32 = .ok (.connSend 3#8) ∧
    decode 0b00000000000001000000000001100100#32 = .ok (.connRecv 4#8) ∧
    decode 0b00000000111111110000000001100101#32 = .ok (.connClose 255#8) := by decide

theorem test_words_connection_arg :
    decode 0b00000000000000010000001001100110#32 = .ok (.connSetCb 1#8 0b10#2) ∧
    decode 0b00000000000000010000110101100111#32 = .ok (.connRdReg 1#8 .cbEn) ∧
    decode 0b00000000000000000000011101100111#32 = .ok (.connRdReg 0#8 .sndBufLen) ∧
    decode 0b00000000000000100000000101101000#32 = .ok (.connRdBuf 2#8 .rcv) ∧
    decode 0b00000000000000100000000001101000#32 = .ok (.connRdBuf 2#8 .snd) := by decide

/-- R85, V-ILL-1 to V-ILL-7, V-TCP-17, V-CONN-18, V-CONN-20, V-CONN-22: rejected by name. -/
theorem test_words_illegal :
    decode 0x00000000#32 = .error .undefinedOp ∧ decode 0x00000069#32 = .error .undefinedOp ∧
    decode 0x000000FF#32 = .error .undefinedOp ∧ decode 0x01000001#32 = .error .reservedBits ∧
    decode 0x00010001#32 = .error .contextMisuse ∧ decode 0x00000101#32 = .error .argBits ∧
    decode 0x00000130#32 = .error .argBits ∧ decode 0x00004032#32 = .error .argBits ∧
    decode 0x00000466#32 = .error .argBits ∧ decode 0x00000E67#32 = .error .registerNumber ∧
    decode 0x00000268#32 = .error .argBits := by decide

/-- The host's numbering: the command word is the table's 32 bits. -/
theorem test_table_word :
    decodeTableWord 32 0x00000267 = some (.connRdReg 0#8 .rcvSeq) ∧ decodeTableWord 32 0x00000E67 = none := by decide

/-! ## Part 3: one step each -/

/-- V-CSUM-7. -/
theorem test_csum :
    reply (exec .csum (onBytes [0x00, 0x01, 0xF2, 0x03, 0xF4, 0xF5, 0xF6, 0xF7])) = ok (.u16 0x220D#16) := by decide

/-- V-CSUM-6: an odd last byte is a high byte. -/
theorem test_csum_odd : reply (exec .csum (onBytes [0x12, 0x34, 0x56])) = ok (.u16 0x97CB#16) := by decide

def tcsumRecord (header payload : List Nat) (src dst : BitVec 32) (proto : BitVec 8) : State :=
  codec { tcsum := { header := bs header, payload := bs payload, srcAddr := src, dstAddr := dst, proto := proto } }

/-- V-TCSUM-1. -/
theorem test_tcsum :
    reply (exec .tcsum (tcsumRecord [0x00, 0x35, 0x00, 0x35, 0x00, 0x0A, 0x00, 0x00] [0x61, 0x62] 0xC0A80001#32
      0xC0A80002#32 17#8)) = ok (.u16 0x1CBA#16) := by decide

/-- V-TCSUM-4: the pseudo-header alone. -/
theorem test_tcsum_pseudo :
    reply (exec .tcsum (tcsumRecord [] [] 0x0A000001#32 0x0A000002#32 6#8)) = ok (.u16 0xEBF6#16) := by decide

def helloFrame : List Nat :=
  [0xAA, 0xBB, 0xCC, 0xDD, 0xEE, 0xFF, 0x00, 0x11, 0x22, 0x33, 0x44, 0x55, 0x08, 0x00, 0x48, 0x65, 0x6C, 0x6C, 0x6F]

def helloRecord : FEth :=
  { dst := 0xAABBCCDDEEFF#48, src := 0x001122334455#48, etype := 0x0800#16,
    payload := bs [0x48, 0x65, 0x6C, 0x6C, 0x6F] }

/-- L1-1. -/
theorem test_ethEnc : reply (exec .ethEnc (codec { eth := helloRecord })) = ok (.bytes (bs helloFrame)) := by decide

/-- L1-2. -/
theorem test_ethDec : reply (exec .ethDec (onBytes helloFrame)) = ok (.eth helloRecord) := by decide

/-- V-ETH-3. -/
theorem test_ethDec_short : reply (exec .ethDec (onBytes (helloFrame.take 13))) = err .tooShort := by decide

/-- V-ETH-6, V-ETH-7. -/
theorem test_ethIsBcast :
    reply (exec .ethIsBcast (codec { eth := { dst := 0xFFFFFFFFFFFF#48 } })) = ok (.u1 1#1) ∧
    reply (exec .ethIsBcast (codec { eth := { dst := 0xFFFFFFFFFFFE#48 } })) = ok (.u1 0#1) := by decide

/-- V-ETH-8, V-ETH-11: only the destination is read. -/
theorem test_ethIsMcast :
    reply (exec .ethIsMcast (codec { eth := { dst := 0x01005E000001#48 } })) = ok (.u1 1#1) ∧
    reply (exec .ethIsMcast (codec { eth := { dst := 0x000000000001#48, src := 0x010000000000#48 } })) =
      ok (.u1 0#1) := by decide

def ipRecord : FIp :=
  { version := 4#4, ihl := 5#4, totalLen := 0x0073#16, flags := 0b010#3, ttl := 0x40#8, proto := 0x11#8,
    checksum := 0xB861#16, src := 0xC0A80001#32, dst := 0xC0A800C7#32 }

def ipBytes : List Nat :=
  [0x45, 0x00, 0x00, 0x73, 0x00, 0x00, 0x40, 0x00, 0x40, 0x11, 0xB8, 0x61, 0xC0, 0xA8, 0x00, 0x01, 0xC0, 0xA8, 0x00,
   0xC7]

/-- V-IP-1. -/
theorem test_ipEnc : reply (exec .ipEnc (codec { ip := ipRecord })) = ok (.bytes (bs ipBytes)) := by decide

/-- V-IP-5: MF and an offset share a word. -/
theorem test_ipEnc_fragment :
    reply (exec .ipEnc (codec
      { ip :=
          { ihl := 5#4, tos := 0x10#8, totalLen := 40#16, id := 0xABCD#16, flags := 0b001#3, fragOff := 185#13,
            ttl := 64#8, proto := 6#8, src := 0x0A000001#32, dst := 0x0A000002#32 } })) =
      ok (.bytes (bs [0x45, 0x10, 0x00, 0x28, 0xAB, 0xCD, 0x20, 0xB9, 0x40, 0x06, 0x9A, 0x37, 0x0A, 0x00, 0x00, 0x01,
        0x0A, 0x00, 0x00, 0x02])) := by decide

/-- V-IP-7: later bytes are ignored. -/
theorem test_ipDec : reply (exec .ipDec (onBytes (ipBytes ++ [1, 2, 3, 4, 5]))) = ok (.ip ipRecord) := by decide

/-- V-IP-6. -/
theorem test_ipDec_short : reply (exec .ipDec (onBytes (ipBytes.take 19))) = err .tooShort := by decide

/-- V-IP-9, V-IP-10, V-IP-11. -/
theorem test_ipIsFrag :
    reply (exec .ipIsFrag (codec { ip := { flags := 0b010#3 } })) = ok (.u1 0#1) ∧
    reply (exec .ipIsFrag (codec { ip := { flags := 0b001#3 } })) = ok (.u1 1#1) ∧
    reply (exec .ipIsFrag (codec { ip := { fragOff := 185#13 } })) = ok (.u1 1#1) := by decide

/-- V-IP-12, V-IP-13. -/
theorem test_ipIsFirst :
    reply (exec .ipIsFirst (codec { ip := { flags := 0b001#3 } })) = ok (.u1 1#1) ∧
    reply (exec .ipIsFirst (codec { ip := { fragOff := 185#13 } })) = ok (.u1 0#1) := by decide

def tcpRecord : FTcp :=
  { srcPort := 443#16, dstPort := 0xC000#16, seq := 0x01020304#32, ack := 0x0A0B0C0D#32, dataOff := 6#4,
    flags := 0x18#6, window := 0x0200#16, checksum := 0xBA55#16, options := bs [0x02, 0x04, 0x05, 0xB4] }

def tcpBytes : List Nat :=
  [0x01, 0xBB, 0xC0, 0x00, 0x01, 0x02, 0x03, 0x04, 0x0A, 0x0B, 0x0C, 0x0D, 0x60, 0x18, 0x02, 0x00, 0xBA, 0x55, 0x00,
   0x00, 0x02, 0x04, 0x05, 0xB4]

/-- V-TCP-3. -/
theorem test_tcpEnc : reply (exec .tcpEnc (codec { tcp := tcpRecord })) = ok (.bytes (bs tcpBytes)) := by decide

/-- V-TCP-2: options are padded. -/
theorem test_tcpEnc_padded :
    reply (exec .tcpEnc (codec
      { tcp :=
          { srcPort := 0x1234#16, dstPort := 80#16, seq := 1#32, flags := 0x02#6, window := 0xFFFF#16,
            options := bs [0x02, 0x04, 0x05] } })) =
      ok (.bytes (bs [0x12, 0x34, 0x00, 0x50, 0x00, 0x00, 0x00, 0x01, 0x00, 0x00, 0x00, 0x00, 0x60, 0x02, 0xFF, 0xFF,
        0x86, 0x74, 0x00, 0x00, 0x02, 0x04, 0x05, 0x00])) := by decide

/-- V-TCP-12: payload bytes are not returned. -/
theorem test_tcpDec : reply (exec .tcpDec (onBytes (tcpBytes ++ [0x61, 0x62]))) = ok (.tcp tcpRecord) := by decide

/-- V-TCP-8: a data offset past the input gives no options. -/
theorem test_tcpDec_truncated :
    reply (exec .tcpDec (onBytes [0x12, 0x34, 0x00, 0x50, 0x00, 0x00, 0x00, 0x01, 0x00, 0x00, 0x00, 0x00, 0x60, 0x02,
      0xFF, 0xFF, 0x00, 0x00, 0x00, 0x00])) =
      ok (.tcp
        { srcPort := 0x1234#16, dstPort := 80#16, seq := 1#32, dataOff := 6#4, flags := 0x02#6,
          window := 0xFFFF#16 }) := by decide

/-- V-TCP-13, V-TCP-14, V-TCP-15. -/
theorem test_tcpHasFlag :
    reply (exec (.tcpHasFlag 0x12#6) (codec { tcp := { flags := 0x12#6 } })) = ok (.u1 1#1) ∧
    reply (exec (.tcpHasFlag 0x12#6) (codec { tcp := { flags := 0x02#6 } })) = ok (.u1 0#1) ∧
    reply (exec (.tcpHasFlag 0#6) (codec {})) = ok (.u1 1#1) := by decide

def udpRecord : FUdp := { srcPort := 0x0035#16, dstPort := 0x0035#16, payload := bs [0x61, 0x62] }

/-- V-UDP-1, HDR_PAYLOAD. -/
theorem test_udpEnc :
    reply (exec .udpEnc (codec { udp := udpRecord })) =
      ok (.bytes (bs [0x00, 0x35, 0x00, 0x35, 0x00, 0x0A, 0x9E, 0x29, 0x61, 0x62])) := by decide

/-- V-UDP-1, HDR_ONLY. -/
theorem test_udpEnc_headerOnly :
    reply (exec .udpEnc { codec { udp := udpRecord } with cfg := params none .hdrOnly }) =
      ok (.bytes (bs [0x00, 0x35, 0x00, 0x35, 0x00, 0x0A, 0xFF, 0x8B, 0x61, 0x62])) := by decide

/-- V-UDP-8: the length field is not checked. -/
theorem test_udpDec :
    reply (exec .udpDec (onBytes [0x00, 0x01, 0x00, 0x02, 0x00, 0xFF, 0x00, 0x00, 0x61])) =
      ok (.udp { srcPort := 1#16, dstPort := 2#16, length := 255#16, payload := bs [0x61] }) := by decide

/-- V-UDP-7. -/
theorem test_udpDec_short : reply (exec .udpDec (onBytes [0, 1, 0, 2, 0, 0xFF, 0])) = err .tooShort := by decide

def ping : FIcmp := { itype := 8#8, id := 7#16, seq := 3#16, payload := bs [0x70, 0x69, 0x6E, 0x67] }

def pingBytes : List Nat := [0x08, 0x00, 0x19, 0x25, 0x00, 0x07, 0x00, 0x03, 0x70, 0x69, 0x6E, 0x67]

/-- V-ICMP-1. -/
theorem test_icmpEnc : reply (exec .icmpEnc (codec { icmp := ping })) = ok (.bytes (bs pingBytes)) := by decide

/-- V-ICMP-6: an odd length. -/
theorem test_icmpEnc_odd :
    reply (exec .icmpEnc (codec
      { icmp := { itype := 8#8, id := 0x1234#16, seq := 1#16, payload := bs [0x61, 0x62, 0x63] } })) =
      ok (.bytes (bs [0x08, 0x00, 0x21, 0x68, 0x12, 0x34, 0x00, 0x01, 0x61, 0x62, 0x63])) := by decide

/-- V-ICMP-3. -/
theorem test_icmpDec :
    reply (exec .icmpDec (onBytes pingBytes)) = ok (.icmp { ping with checksum := 0x1925#16 }) := by decide

/-- V-ICMP-7. -/
theorem test_icmpDec_short : reply (exec .icmpDec (onBytes (pingBytes.take 7))) = err .tooShort := by decide

/-- V-ICMP-8, V-ICMP-9: the code is not read. -/
theorem test_icmpIsReq :
    reply (exec .icmpIsReq (codec { icmp := { itype := 8#8, code := 1#8 } })) = ok (.u1 1#1) ∧
    reply (exec .icmpIsReq (codec { icmp := { itype := 0#8 } })) = ok (.u1 0#1) := by decide

/-- V-ICMP-10, V-ICMP-11. -/
theorem test_icmpIsRep :
    reply (exec .icmpIsRep (codec { icmp := { itype := 0#8 } })) = ok (.u1 1#1) ∧
    reply (exec .icmpIsRep (codec { icmp := { itype := 3#8 } })) = ok (.u1 0#1) := by decide

/-- L1-5. -/
theorem test_icmpReply :
    reply (exec .icmpReply (codec { icmp := ping })) = ok (.icmp { ping with itype := 0#8 }) := by decide

/-- V-ICMP-12: the type is not checked. -/
theorem test_icmpReply_anyType :
    reply (exec .icmpReply (codec { icmp := { itype := 13#8, checksum := 9#16, id := 1#16, seq := 2#16 } })) =
      ok (.icmp { id := 1#16, seq := 2#16 }) := by decide

def createRecord : FCreate :=
  { localAddr := 0x0A000001#32, localPort := 5000#16, remoteAddr := 0x0A000002#32, remotePort := 80#16 }

/-- V-CONN-1, from a used context. -/
theorem test_connCreate :
    after (exec (.connCreate 0#8)
      (block [conn .established 3#2 (bs [1]) (bs [2])] none { create := createRecord })) =
      some
        { Conn.reset (params none .hdrPayload) with
          localAddr := 0x0A000001#32, localPort := 5000#16, remoteAddr := 0x0A000002#32, remotePort := 80#16 } := by
  decide

/-- V-CONN-2 with p = 1: both counters follow the draw, whatever it is. -/
theorem test_connConnect :
    exec (.connConnect 0#8) (block [conn .closed 1#2 [] []] none {}) =
      .next
        { block
            [{ conn .established 1#2 [] [] with
                sndSeq := Config.isnDraw 0 + 1#32, rcvSeq := Config.isnDraw 0 + 1#32 }] none {} with
          responses := [{ status := .ok, result := none, notes := [.stateChange 4#4] }]
          draws := 1 } := rfl

/-- V-CONN-4. -/
theorem test_connConnect_listen :
    reply (exec (.connConnect 0#8) (block [conn .listen 1#2 [] []] none {})) = err .invalidState := by decide

/-- V-CONN-13. -/
theorem test_connListen :
    reply (exec (.connListen 0#8) (block [conn .established 1#2 [] []] none {})) = done [.stateChange 1#4] ∧
    after (exec (.connListen 0#8) (block [conn .established 1#2 [] []] none {})) = some (conn .listen 1#2 [] []) := by
  decide

/-- V-CONN-14: from LISTEN it notifies again. -/
theorem test_connListen_again :
    reply (exec (.connListen 0#8) (block [conn .listen 1#2 [] []] none {})) = done [.stateChange 1#4] := by decide

/-- V-CONN-8: SND_SEQ wraps. -/
theorem test_connSend :
    after (exec (.connSend 0#8)
      (block [conn .established 3#2 (bs [9]) []] none { bytes := { data := bs [1, 2, 3, 4, 5] } })) =
      some { conn .established 3#2 (bs [9, 1, 2, 3, 4, 5]) [] with sndSeq := 0x00000003#32 } := by decide

/-- V-CONN-24, V-CONN-25: the state check comes before the capacity check. -/
theorem test_connSend_priority :
    reply (exec (.connSend 0#8)
      (block [conn .listen 0#2 [] []] (some 4) { bytes := { data := bs [1, 2, 3, 4, 5] } })) = err .invalidState ∧
    reply (exec (.connSend 0#8)
      (block [conn .established 0#2 [] []] (some 4) { bytes := { data := bs [1, 2, 3, 4, 5] } })) =
      err .tooLarge := by decide

/-- V-CONN-10: in CLOSED, with RCV_SEQ wrapping. -/
theorem test_connRecv :
    reply (exec (.connRecv 0#8) (block [conn .closed 2#2 [] []] none { bytes := { data := bs [0x68, 0x69] } })) =
      done [.dataReceived (bs [0x68, 0x69])] ∧
    after (exec (.connRecv 0#8) (block [conn .closed 2#2 [] []] none { bytes := { data := bs [0x68, 0x69] } })) =
      some { conn .closed 2#2 [] (bs [0x68, 0x69]) with rcvSeq := 0x00000000#32 } := by decide

/-- V-CONN-26. -/
theorem test_connRecv_full :
    reply (exec (.connRecv 0#8)
      (block [conn .closed 2#2 [] (bs [0x61, 0x62, 0x63])] (some 4) { bytes := { data := bs [0x64, 0x65] } })) =
      err .tooLarge := by decide

/-- V-CONN-15. -/
theorem test_connClose :
    reply (exec (.connClose 0#8) (block [conn .established 1#2 (bs [1]) (bs [2])] none {})) =
      done [.stateChange 5#4] ∧
    after (exec (.connClose 0#8) (block [conn .established 1#2 (bs [1]) (bs [2])] none {})) =
      some (conn .closed 1#2 (bs [1]) (bs [2])) := by decide

/-- V-CONN-16. -/
theorem test_connClose_closed :
    reply (exec (.connClose 0#8) (block [conn .closed 1#2 [] []] none {})) = done [] := by decide

/-- V-CONN-17. -/
theorem test_connSetCb :
    after (exec (.connSetCb 0#8 3#2) (block [conn .listen 0#2 [] []] none {})) = some (conn .listen 3#2 [] []) := by
  decide

/-- V-CONN-19 and the state code of R27. -/
theorem test_connRdReg :
    reply (exec (.connRdReg 0#8 .cbEn) (block [conn .established 2#2 [] []] none {})) = ok (.u32 2#32) ∧
    reply (exec (.connRdReg 0#8 .state) (block [conn .established 2#2 [] []] none {})) = ok (.u32 4#32) := by decide

/-- R26: register 8 is the length of RCV_BUF. -/
theorem test_connRdReg_length :
    reply (exec (.connRdReg 0#8 .rcvBufLen) (block [conn .closed 0#2 (bs [1]) (bs [2, 3])] none {})) =
      ok (.u32 2#32) := by decide

/-- V-CONN-21, and the other buffer. -/
theorem test_connRdBuf :
    reply (exec (.connRdBuf 0#8 .snd) (block [conn .closed 0#2 (bs [0x61, 0x62, 0x63]) (bs [1])] none {})) =
      ok (.bytes (bs [0x61, 0x62, 0x63])) ∧
    reply (exec (.connRdBuf 0#8 .rcv) (block [conn .closed 0#2 (bs [0x61, 0x62, 0x63]) (bs [1])] none {})) =
      ok (.bytes (bs [1])) := by decide

/-- V-ILL-3, V-CONN-23: an illegal word answers Illegal, whatever its record. -/
theorem test_step_illegal :
    reply (step ((onBytes [1]).withFetchWord 32 0x01000001)) = err .illegal ∧
    reply (step ((onBytes [1]).withFetchWord 32 0x00010061)) = err .illegal := by decide

/-- The first command after reset: CSUM of an empty operand (V-CSUM-1). -/
theorem test_step_reset : reply (step (State.reset.withFetchWord 32 0x00000001)) = ok (.u16 0xFFFF#16) := rfl

/-- The host takes the oldest response. -/
theorem test_takeResponse :
    ((codec {}).respond (.failure .illegal)).takeResponse = some (Response.failure .illegal, codec {}) := by decide

/-! ## Part 4: assembler lines -/

/-- `TCP.HASFLAG SYN, src_port=80, flags=0x12` (R101). -/
theorem test_asm_hasflag :
    AsmLine.assemble
      { op := .tcpHasFlag, arg := some (.flags [.syn]), fields := [(.srcPort, .int 80), (.flags, .int 0x12)] } =
      some { word := 0x00000232#32, op := { tcp := { srcPort := 80#16, flags := 0x12#6 } } } := by decide

/-- `CONN.RDREG c0, SND_SEQ` (R101; P1 step 8) and `CONN.SETCB c0, STATE|DATA` (P1 step 2). -/
theorem test_asm_conn :
    AsmLine.assemble { op := .connRdReg, ctx := some 0, arg := some (.reg .sndSeq) } =
      some { word := 0x00000167#32 } ∧
    AsmLine.assemble { op := .connSetCb, ctx := some 0, arg := some (.slots [.state, .data]) } =
      some { word := 0x00000366#32 } := by decide

/-- The pseudo-instructions (R102; P2 step 1). -/
theorem test_asm_pseudo :
    (Pseudo.connReset 0).expand.assemble = some { word := 0x00000060#32 } ∧
    (Pseudo.cbAll 1).expand.assemble = some { word := 0x00010366#32 } ∧
    (Pseudo.cbNone 1).expand.assemble = some { word := 0x00010066#32 } ∧
    (Pseudo.csumZero (bs [1])).expand.assemble =
      some { word := 0x00000001#32, op := { bytes := { data := bs [1] } } } := by decide

/-- A field of another format, a value past its width and a missing context are no command. -/
theorem test_asm_refused :
    AsmLine.assemble { op := .csum, fields := [(.header, .seq [])] } = none ∧
    AsmLine.assemble { op := .ipEnc, fields := [(.ttl, .int 256)] } = none ∧
    AsmLine.assemble { op := .connClose } = none := by decide

/-! ## Part 5: witnesses. Each shows a state and operands that meet all hypotheses of the obligation it names, one for
each of its clauses, at the edge of a clause's range where it has one. -/

/-- A state with one command presented. -/
def presented (w : Word) (op : OperandRecord) : State :=
  { block [conn .closed 3#2 [] []] (some 4) {} with pending := [{ word := w, op := op }] }

/-- `n` bytes of zeros. -/
def long (n : Nat) : Bytes := List.replicate n 0#8

theorem long_length (n : Nat) : (long n).length = n := List.length_replicate

/-- The next state of an answer. -/
def next? : Answer → Option State
  | .next t => some t
  | .fault _ => none
  | .refused _ => none

theorem eq_next {a : Answer} {t : State} (h : next? a = some t) : a = .next t := by
  cases a <;> simp_all [next?]

theorem witness_EncodeDecodeRoundTrip : decode 0x00FF0D67#32 = .ok (.connRdReg 0xFF#8 .cbEn) := by decide

/-- One word for each case of R85, at the edge of each. -/
theorem witness_IllegalWordsAnswerIllegal :
    (presented 0x00000069#32 {}).pending = [{ word := 0x00000069#32 }] ∧
    IllegalWord 1 0x00000069#32 ∧ IllegalWord 1 0x01000001#32 ∧ IllegalWord 1 0x00010054#32 ∧
    IllegalWord 1 0x00010060#32 ∧ IllegalWord 1 0x00000466#32 ∧ IllegalWord 1 0x00000E67#32 := by
  simp only [IllegalWord]
  refine ⟨rfl, ?_, ?_, ?_, ?_, ?_, ?_⟩ <;> decide

theorem witness_StepRunsDecodedCommand :
    (presented 0x00000167#32 {}).pending = { word := 0x00000167#32 } :: [] ∧
    decode 0x00000167#32 = .ok (.connRdReg 0#8 .sndSeq) := by decide

theorem witness_IdleStepChangesNothing : State.reset.pending = [] := rfl

theorem witness_EveryCommandCompletes : (presented 0x00000001#32 {}).pending = { word := 0x00000001#32 } :: [] := rfl

theorem witness_ResetPutsEveryContextAtCreation : 0 < 1 ∧ 255 < 256 := by decide

theorem witness_ResetIsCreateWithZeros :
    (0#8).toNat < (codec {}).nConn ∧
    (codec {}).op.create = { localAddr := 0, localPort := 0, remoteAddr := 0, remotePort := 0 } := by decide

theorem witness_ResetMeetsInvariant : (1 ≤ 1 ∧ 1 ≤ 256) ∧ (1 ≤ 256 ∧ 256 ≤ 256) := by decide

/-- Holding data up to a finite CONN_BUF_CAP, with CONN.CLOSE presented. -/
def busy : State :=
  { block [conn .established 1#2 (bs [1, 2, 3, 4]) []] (some 4) {} with pending := [{ word := 0x00000065#32 }] }

theorem witness_StepKeepsInvariant : busy.Inv ∧ ∃ t, step busy = .next t := by
  refine ⟨⟨by decide, by decide, ?_, by simp [busy, block]⟩, _, rfl⟩
  intro c hc
  simp only [busy, block, List.mem_singleton] at hc
  subst hc
  exact ⟨by decide, rfl, rfl, rfl, rfl, by simp [busy, block, params, conn, bs], by simp [conn]⟩

theorem witness_StepKeepsParameters : ∃ t, step busy = .next t := ⟨_, rfl⟩

theorem witness_ErrorChangesNothing :
    ∃ t r, exec (.connSend 0#8) (codec {}) = .next t ∧ t.responses = (codec {}).responses ++ [r] ∧ r.status ≠ .ok :=
  ⟨(codec {}).respond (.failure .invalidState), _, eq_next (by decide), rfl, by decide⟩

theorem witness_OnlyAddressedContextChanges : ∃ t, step busy = .next t ∧ t.conn? 0#8 ≠ busy.conn? 0#8 :=
  ⟨_, rfl, by decide⟩

/-- Two states with different contexts. -/
theorem witness_ContextFreeCommandsArePure :
    Instr.context? .csum = none ∧ (onBytes [1]).op = (block [] none { bytes := { data := bs [1] } }).op ∧
    (onBytes [1]).cfg = (block [] none { bytes := { data := bs [1] } }).cfg := by decide

/-- Two states that agree on context 1 only. -/
theorem witness_ContextCommandsReadOnlyTheirContext :
    let c := conn .closed 0#2 [] []
    let s := block [c, c] none {}
    let u := block [conn .listen 3#2 [] [], c] none {}
    Instr.context? (.connListen 1#8) = some 1#8 ∧ s.conn? 1#8 = u.conn? 1#8 ∧ s.op = u.op ∧ s.cfg = u.cfg ∧
      s.draws = u.draws ∧ (∃ t, exec (.connListen 1#8) s = .next t) ∧ ∃ v, exec (.connListen 1#8) u = .next v :=
  ⟨rfl, rfl, rfl, rfl, rfl, ⟨_, rfl⟩, _, rfl⟩

theorem witness_OtherFormatsAreNotRead :
    OperandRecord.Agree (Instr.format .csum) (onBytes [1]).op
      { bytes := { data := bs [1] }, eth := helloRecord } ∧
    ∃ t, exec .csum (onBytes [1]) = .next t :=
  ⟨rfl, (onBytes [1]).respond (.success (some (.u16 0xFEFF#16)) []), eq_next (by decide)⟩

/-- One byte past MAX_OPERAND_BYTES. -/
theorem witness_OversizedOperandIsTooLarge :
    let s := codec { tcsum := { payload := long 65548 } }
    Instr.wellFormed s.nConn .tcsum = true ∧ long 65548 ∈ s.op.byteFields (Instr.format .tcsum) ∧
      s.cfg.maxOperandBytes < (long 65548).length := by
  refine ⟨rfl, List.mem_cons_of_mem _ (List.mem_cons_self ..), ?_⟩
  rw [long_length]
  decide

def used : Conn :=
  { state := .established, sndSeq := 1#32, rcvSeq := 1#32, sndWnd := 1#32, rcvWnd := 1#32, cwnd := 1#32,
    ssthresh := 1#32, sndBuf := bs [1], rcvBuf := bs [1], localAddr := 1#32, localPort := 1#16,
    remoteAddr := 1#32, remotePort := 1#16, cbEn := 3#2 }

def usedBlock : State := block [used] none { bytes := { data := bs [7] } }

/-- What a CONN.* command leaves of `usedBlock`. -/
def left (c : Conn) (notes : List Notification) : State := (usedBlock.setConn 0#8 c).respond (.success none notes)

def created : Conn := Conn.reset (params none .hdrPayload)

def sent : Conn := { used with sndBuf := bs [1, 7], sndSeq := 2#32 }

def received : Conn := { used with rcvBuf := bs [1, 7], rcvSeq := 2#32 }

/-- CONN.CREATE on a used context differs in every register and buffer; the other writers one by one. -/
theorem witness_RegisterWriters :
    usedBlock.conn? 0#8 = some used ∧
    (exec (.connCreate 0#8) usedBlock = .next (left created []) ∧ (left created []).conn? 0#8 = some created ∧
      created.state ≠ used.state ∧ created.sndSeq ≠ used.sndSeq ∧ created.rcvSeq ≠ used.rcvSeq ∧
      created.sndWnd ≠ used.sndWnd ∧ created.cbEn ≠ used.cbEn ∧ created.sndBuf ≠ used.sndBuf ∧
      created.rcvBuf ≠ used.rcvBuf) ∧
    (exec (.connSetCb 0#8 2#2) usedBlock = .next (left { used with cbEn := 2#2 } []) ∧ (2#2 : BitVec 2) ≠ used.cbEn) ∧
    (exec (.connSend 0#8) usedBlock = .next (left sent []) ∧ sent.sndSeq ≠ used.sndSeq ∧ sent.sndBuf ≠ used.sndBuf) ∧
    (exec (.connRecv 0#8) usedBlock = .next (left received [.dataReceived (bs [7])]) ∧
      received.rcvSeq ≠ used.rcvSeq ∧ received.rcvBuf ≠ used.rcvBuf) :=
  ⟨rfl, ⟨eq_next (by decide), by decide⟩, ⟨eq_next (by decide), by decide⟩, ⟨eq_next (by decide), by decide⟩,
    eq_next (by decide), by decide⟩

theorem witness_BuffersOnlyGrow :
    exec (.connSend 0#8) usedBlock = .next (left sent []) ∧ usedBlock.conn? 0#8 = some used ∧
      (left sent []).conn? 0#8 = some sent ∧ Instr.connSend 0#8 ≠ .connCreate 0#8 :=
  ⟨eq_next (by decide), rfl, rfl, by decide⟩

/-- A response with each notification. -/
theorem witness_NotificationSources :
    (exec (.connClose 0#8) usedBlock = .next (left { used with state := .closed } [.stateChange 5#4]) ∧
      (left { used with state := .closed } [.stateChange 5#4]).responses =
        usedBlock.responses ++ [Response.success none [.stateChange 5#4]]) ∧
    (exec (.connRecv 0#8) usedBlock = .next (left received [.dataReceived (bs [7])]) ∧
      (left received [.dataReceived (bs [7])]).responses =
        usedBlock.responses ++ [Response.success none [.dataReceived (bs [7])]]) :=
  ⟨⟨eq_next (by decide), rfl⟩, eq_next (by decide), rfl⟩

/-- Each command that moves STATE, from each state held between commands, and one that does not. -/
theorem witness_TransitionTable :
    let s := fun st => block [conn st 3#2 [] []] none {}
    ∀ st, st = TcpState.closed ∨ st = .listen ∨ st = .established →
      ∀ i ∈ [Instr.connCreate 0#8, .connConnect 0#8, .connListen 0#8, .connClose 0#8, .connSetCb 0#8 1#2],
        i.context? = some 0#8 ∧ ∃ t d, exec i (s st) = .next t ∧ (s st).conn? 0#8 = some (conn st 3#2 [] []) ∧
          t.conn? 0#8 = some d := by
  intro s st h i hi
  simp only [List.mem_cons, List.not_mem_nil, or_false] at hi
  rcases h with rfl | rfl | rfl <;> rcases hi with rfl | rfl | rfl | rfl | rfl <;>
    exact ⟨rfl, _, _, rfl, rfl, rfl⟩

/-- The longest operand; no byte; one byte. -/
theorem witness_CsumResult :
    (codec { bytes := { data := long 65547 } }).op.bytes.data.length ≤ (codec {}).cfg.maxOperandBytes ∧
    (∀ b ∈ (onBytes []).op.bytes.data, b = 0#8) ∧ (∀ b ∈ (onBytes [0, 0]).op.bytes.data, b = 0#8) ∧
    (onBytes [0xFF]).op.bytes.data = [0xFF#8] := by
  refine ⟨?_, by decide, by decide, rfl⟩
  show (long 65547).length ≤ _
  rw [long_length]
  decide

theorem witness_OcsumWordOrder : [(1#8, 2#8), (3#8, 4#8)].Perm [(3#8, 4#8), (1#8, 2#8)] := by decide

/-- The checksum field as the whole image, and as its last two bytes of an odd length. -/
theorem witness_ReceiverCheckFoldsToZero :
    (0 % 2 = 0 ∧ 0 + 2 ≤ (bs [9, 9]).length) ∧ (2 % 2 = 0 ∧ 2 + 2 ≤ (bs [1, 2, 9, 9, 5]).length) := by decide

/-- A header and payload of exactly 65535 bytes, and of one more. -/
theorem witness_TcsumResult :
    let s := fun n => codec { tcsum := { header := long 65535, payload := long n } }
    ((s 0).op.tcsum.header.length ≤ (s 0).cfg.maxOperandBytes ∧
      (s 0).op.tcsum.payload.length ≤ (s 0).cfg.maxOperandBytes ∧
      (s 0).op.tcsum.header.length + (s 0).op.tcsum.payload.length ≤ 65535) ∧
    ((s 1).op.tcsum.header.length ≤ (s 1).cfg.maxOperandBytes ∧
      (s 1).op.tcsum.payload.length ≤ (s 1).cfg.maxOperandBytes ∧
      65535 < (s 1).op.tcsum.header.length + (s 1).op.tcsum.payload.length) := by
  simp [codec, block, long_length, params, Params.maxOperandBytes, minOperandBytes]

/-- V-TCSUM-1 and V-TCSUM-2: the field at offset 6 of the header. -/
theorem witness_TcsumVerifiesWrittenChecksum :
    let s := tcsumRecord [0x00, 0x35, 0x00, 0x35, 0x00, 0x0A, 0x00, 0x00] [0x61, 0x62] 0xC0A80001#32 0xC0A80002#32 17#8
    let u := tcsumRecord [0x00, 0x35, 0x00, 0x35, 0x00, 0x0A, 0x1C, 0xBA] [0x61, 0x62] 0xC0A80001#32 0xC0A80002#32 17#8
    6 % 2 = 0 ∧ 6 + 2 ≤ s.op.tcsum.header.length ∧ be16 s.op.tcsum.header 6 = 0#16 ∧
      s.Returns .tcsum (.u16 0x1CBA#16) ∧ u.cfg = s.cfg ∧
      u.op.tcsum = { s.op.tcsum with header := patch16 s.op.tcsum.header 6 0x1CBA#16 } :=
  ⟨rfl, by decide, by decide, eq_next (by decide), rfl, by decide⟩

/-- 1500 and 1501 bytes of payload (L1-3). -/
theorem witness_EthEncImage :
    (codec { eth := { payload := long 1500 } }).op.eth.payload.length ≤ 1500 ∧
    1500 < (codec { eth := { payload := long 1501 } }).op.eth.payload.length := by
  simp [codec, block, long_length]

theorem witness_EthDecRecord :
    let s := fun n => onBytes (helloFrame.take n)
    ((s 14).op.bytes.data.length ≤ (s 14).cfg.maxOperandBytes ∧ 14 ≤ (s 14).op.bytes.data.length) ∧
    ((s 13).op.bytes.data.length ≤ (s 13).cfg.maxOperandBytes ∧ (s 13).op.bytes.data.length < 14) := by
  simp [onBytes, codec, block, bs, helloFrame, params, Params.maxOperandBytes, minOperandBytes]

theorem witness_EthRoundTrip :
    (codec { eth := helloRecord }).Returns .ethEnc (.bytes (bs helloFrame)) ∧
    (onBytes helloFrame).op.bytes.data = bs helloFrame ∧
    (onBytes helloFrame).op.bytes.data.length ≤ 1514 ∧
    (onBytes helloFrame).Returns .ethDec (.eth helloRecord) ∧ (codec { eth := helloRecord }).op.eth = helloRecord :=
  ⟨eq_next (by decide), rfl, by decide, eq_next (by decide), rfl⟩

/-- 1501 bytes of payload: a predicate makes no size check (V-ETH-12). -/
theorem witness_EthPredicates :
    (codec { eth := { payload := long 1501 } }).op.eth.payload.length ≤ (codec {}).cfg.maxOperandBytes := by
  simp [codec, block, long_length, params, Params.maxOperandBytes, minOperandBytes]

theorem witness_IpDecRecord :
    let s := fun n => onBytes (ipBytes.take n)
    ((s 20).op.bytes.data.length ≤ (s 20).cfg.maxOperandBytes ∧ 20 ≤ (s 20).op.bytes.data.length) ∧
    ((s 19).op.bytes.data.length ≤ (s 19).cfg.maxOperandBytes ∧ (s 19).op.bytes.data.length < 20) := by
  simp [onBytes, codec, block, bs, ipBytes, params, Params.maxOperandBytes, minOperandBytes]

/-- V-IP-1, with a version the encoder does not read. -/
theorem witness_IpRoundTrip :
    (codec { ip := { ipRecord with version := 6#4 } }).Returns .ipEnc (.bytes (bs ipBytes)) ∧
    (onBytes ipBytes).op.bytes.data = bs ipBytes := ⟨eq_next (by decide), rfl⟩

/-- 40 and 41 bytes of options (V-TCP-4, V-TCP-6). -/
theorem witness_TcpEncImage :
    (codec { tcp := { options := long 40 } }).op.tcp.options.length ≤ 40 ∧
    40 < (codec { tcp := { options := long 41 } }).op.tcp.options.length := by
  simp [codec, block, long_length]

theorem witness_TcpDecRecord :
    let s := fun n => onBytes (tcpBytes.take n)
    ((s 20).op.bytes.data.length ≤ (s 20).cfg.maxOperandBytes ∧ 20 ≤ (s 20).op.bytes.data.length) ∧
    ((s 19).op.bytes.data.length ≤ (s 19).cfg.maxOperandBytes ∧ (s 19).op.bytes.data.length < 20) := by
  simp [onBytes, codec, block, bs, tcpBytes, params, Params.maxOperandBytes, minOperandBytes]

/-- V-TCP-3. -/
theorem witness_TcpRoundTrip :
    let s := codec { tcp := tcpRecord }
    s.Returns .tcpEnc (.bytes (bs tcpBytes)) ∧ (onBytes tcpBytes).op.bytes.data = bs tcpBytes ∧
      s.op.tcp.options.length % 4 = 0 ∧ s.op.tcp.dataOff.toNat = 5 + s.op.tcp.options.length / 4 ∧
      s.op.tcp.checksum = be16 (bs tcpBytes) 16 :=
  ⟨eq_next (by decide), rfl, rfl, rfl, by decide⟩

/-- Options longer than TCP.ENC takes. -/
theorem witness_TcpHasFlagResult :
    (codec { tcp := { options := long 65547 } }).op.tcp.options.length ≤ (codec {}).cfg.maxOperandBytes := by
  simp [codec, block, long_length, params, Params.maxOperandBytes, minOperandBytes]

/-- 65527 and 65528 bytes of payload (V-UDP-4, V-UDP-5). -/
theorem witness_UdpEncImage :
    8 + (codec { udp := { payload := long 65527 } }).op.udp.payload.length ≤ 65535 ∧
    65535 < 8 + (codec { udp := { payload := long 65528 } }).op.udp.payload.length := by
  simp [codec, block, long_length]

theorem witness_UdpDecRecord :
    let s := fun n => onBytes (pingBytes.take n)
    ((s 8).op.bytes.data.length ≤ (s 8).cfg.maxOperandBytes ∧ 8 ≤ (s 8).op.bytes.data.length) ∧
    ((s 7).op.bytes.data.length ≤ (s 7).cfg.maxOperandBytes ∧ (s 7).op.bytes.data.length < 8) := by
  simp [onBytes, codec, block, bs, pingBytes, params, Params.maxOperandBytes, minOperandBytes]

/-- V-UDP-2. -/
theorem witness_UdpRoundTrip :
    let image := bs [0x04, 0xD2, 0x16, 0x2E, 0x00, 0x0B, 0x20, 0x92, 0x61, 0x62, 0x63]
    let s := codec
      { udp :=
          { srcPort := 1234#16, dstPort := 5678#16, length := 11#16, checksum := 0x2092#16,
            payload := bs [0x61, 0x62, 0x63] } }
    s.Returns .udpEnc (.bytes image) ∧ (codec { bytes := { data := image } }).op.bytes.data = image ∧
      s.op.udp.length.toNat = 8 + s.op.udp.payload.length ∧ s.op.udp.checksum = be16 image 6 :=
  ⟨eq_next (by decide), rfl, rfl, by decide⟩

/-- An image of MAX_OPERAND_BYTES, and one a byte longer. -/
theorem witness_IcmpEncImage :
    8 + (codec { icmp := { payload := long 65539 } }).op.icmp.payload.length ≤ (codec {}).cfg.maxOperandBytes ∧
    (codec {}).cfg.maxOperandBytes < 8 + (codec { icmp := { payload := long 65540 } }).op.icmp.payload.length := by
  simp [codec, block, long_length, params, Params.maxOperandBytes, minOperandBytes]

theorem witness_IcmpDecRecord :
    let s := fun n => onBytes (pingBytes.take n)
    ((s 8).op.bytes.data.length ≤ (s 8).cfg.maxOperandBytes ∧ 8 ≤ (s 8).op.bytes.data.length) ∧
    ((s 7).op.bytes.data.length ≤ (s 7).cfg.maxOperandBytes ∧ (s 7).op.bytes.data.length < 8) := by
  simp [onBytes, codec, block, bs, pingBytes, params, Params.maxOperandBytes, minOperandBytes]

/-- V-ICMP-1, by each of the two ways the image can be within the decoding block's limit. -/
theorem witness_IcmpRoundTrip :
    let s := codec { icmp := { ping with checksum := 0x1925#16 } }
    s.Returns .icmpEnc (.bytes (bs pingBytes)) ∧ (onBytes pingBytes).op.bytes.data = bs pingBytes ∧
      (onBytes pingBytes).cfg = s.cfg ∧ (bs pingBytes).length ≤ (onBytes pingBytes).cfg.maxOperandBytes ∧
        s.op.icmp.checksum = be16 (bs pingBytes) 2 :=
  ⟨eq_next (by decide), rfl, rfl,
    by simp [bs, pingBytes, onBytes, codec, block, params, Params.maxOperandBytes, minOperandBytes], by decide⟩

theorem witness_IcmpPredicatesAndReply :
    (codec { icmp := ping }).op.icmp.payload.length ≤ (codec {}).cfg.maxOperandBytes := by
  simp [codec, block, ping, bs, params, Params.maxOperandBytes, minOperandBytes]

/-- The last context of a block of 256. -/
theorem witness_ConnCreateEffect : (255#8).toNat < (State.resetWith (params none .hdrPayload) 256).nConn := by
  rw [State.nConn, State.resetWith, List.length_replicate]
  decide

theorem witness_ConnConnectEffect :
    (block [conn .closed 1#2 [] []] none {}).conn? 0#8 = some (conn .closed 1#2 [] []) ∧
    (conn .closed 1#2 [] []).state = .closed ∧
    (block [conn .listen 1#2 [] []] none {}).conn? 0#8 = some (conn .listen 1#2 [] []) ∧
    (conn .listen 1#2 [] []).state ≠ .closed := by decide

theorem witness_ConnListenEffect :
    (block [conn .established 1#2 [] []] none {}).conn? 0#8 = some (conn .established 1#2 [] []) := by decide

/-- Four bytes fill a buffer of capacity 4 exactly; five pass it; and a state other than ESTABLISHED. -/
theorem witness_ConnSendEffect :
    let s := fun st l => block [conn st 0#2 [] []] (some 4) { bytes := { data := bs l } }
    ((s .established [1, 2, 3, 4]).conn? 0#8 = some (conn .established 0#2 [] []) ∧
      (s .established [1, 2, 3, 4]).op.bytes.data.length ≤ (s .established [1, 2, 3, 4]).cfg.maxOperandBytes ∧
      (conn .established 0#2 [] []).state = .established ∧
      ¬ ∃ cap, (s .established [1, 2, 3, 4]).cfg.connBufCap = some cap ∧ cap < 0 + (bs [1, 2, 3, 4]).length) ∧
    (∃ cap, (s .established [1, 2, 3, 4, 5]).cfg.connBufCap = some cap ∧ cap < 0 + (bs [1, 2, 3, 4, 5]).length) ∧
    ((s .listen [1]).conn? 0#8 = some (conn .listen 0#2 [] []) ∧ (conn .listen 0#2 [] []).state ≠ .established) := by
  refine ⟨⟨rfl, ?_, rfl, ?_⟩, ⟨4, rfl, by decide⟩, rfl, by decide⟩
  · simp [block, bs, params, Params.maxOperandBytes, minOperandBytes]
  · rintro ⟨cap, h, h'⟩
    cases h
    simp [bs] at h'

theorem witness_ConnRecvEffect :
    let s := fun l => block [conn .closed 2#2 [] (bs [0])] (some 4) { bytes := { data := bs l } }
    ((s [1, 2, 3]).conn? 0#8 = some (conn .closed 2#2 [] (bs [0])) ∧
      (s [1, 2, 3]).op.bytes.data.length ≤ (s [1, 2, 3]).cfg.maxOperandBytes ∧
      ¬ ∃ cap, (s [1, 2, 3]).cfg.connBufCap = some cap ∧ cap < (bs [0]).length + (bs [1, 2, 3]).length) ∧
    (∃ cap, (s [1, 2, 3, 4]).cfg.connBufCap = some cap ∧ cap < (bs [0]).length + (bs [1, 2, 3, 4]).length) := by
  refine ⟨⟨rfl, ?_, ?_⟩, 4, rfl, by decide⟩
  · simp [block, bs, params, Params.maxOperandBytes, minOperandBytes]
  · rintro ⟨cap, h, h'⟩
    cases h
    simp [bs] at h'

theorem witness_ConnCloseEffect :
    (block [conn .listen 1#2 [] []] none {}).conn? 0#8 = some (conn .listen 1#2 [] []) ∧
    (conn .listen 1#2 [] []).state ≠ .closed ∧
    (block [conn .closed 1#2 [] []] none {}).conn? 0#8 = some (conn .closed 1#2 [] []) ∧
    (conn .closed 1#2 [] []).state = .closed := by decide

theorem witness_ConnSetCbEffect : (codec {}).conn? 0#8 = some (conn .closed 0#2 [] []) := by decide

theorem witness_ConnRdRegResult : (codec {}).conn? 0#8 = some (conn .closed 0#2 [] []) := by decide

/-- A buffer of MAX_OPERAND_BYTES, and one byte longer. -/
theorem witness_ConnRdBufResult :
    let c := fun n => conn .closed 0#2 (long n) []
    ((block [c 65547] none {}).conn? 0#8 = some (c 65547) ∧
      (c 65547).sndBuf.length ≤ (block [c 65547] none {}).cfg.maxOperandBytes) ∧
    ((block [c 65548] none {}).conn? 0#8 = some (c 65548) ∧
      (block [c 65548] none {}).cfg.maxOperandBytes < (c 65548).sndBuf.length) := by
  refine ⟨⟨rfl, ?_⟩, rfl, ?_⟩
  · show (long 65547).length ≤ _
    rw [long_length]
    decide
  · show _ < (long 65548).length
    rw [long_length]
    decide

end Sys2Proof.Tests
end

section
/-! PROOFS. The scope family (00_scope.md): what a step is, by its presented command, and what no step writes. -/

namespace Sys2Proof.Machine

/-! ## The step by the command presented -/

theorem step_of_pending_cons {s : State} {c : Command} {rest : List Command} (h : s.pending = c :: rest) :
    step s = (s.accept c rest).perform c.word := by
  simp only [step, State.performNext, h]

theorem perform_of_decode_ok {w : Word} {i : Instr} (h : decode w = .ok i) (s : State) :
    s.perform w = exec i s := by
  simp only [State.perform, h]

/-- Settles O6: the step performs the accepted command, and performing a word that decodes is executing its command. -/
theorem stepRunsDecodedCommand : Obligations.StepRunsDecodedCommand := by
  intro s c rest i hpending hdecode
  calc step s = (s.accept c rest).perform c.word := step_of_pending_cons hpending
    _ = exec i (s.accept c rest) := perform_of_decode_ok hdecode _

/-! ## Parameters and the number of contexts -/

/-- No effect of a command writes a parameter. -/
theorem Effect.cfg_eq {i : Instr} {s t : State} {r : Response} (h : Effect i s t r) : t.cfg = s.cfg := by
  cases h with
  | failed e => exact State.respond_cfg ..
  | pure r => exact State.respond_cfg ..
  | onContext k c d => simp only [State.respond_cfg, State.advanceDraws_cfg, State.setConn_cfg]

/-- No effect of a command adds or removes a context: CONN.* commands replace one in its place. -/
theorem Effect.nConn_eq {i : Instr} {s t : State} {r : Response} (h : Effect i s t r) : t.nConn = s.nConn := by
  cases h with
  | failed e => exact State.respond_nConn ..
  | pure r => exact State.respond_nConn ..
  | onContext k c d => simp only [State.respond_nConn, State.advanceDraws_nConn, State.setConn_nConn]

/-- Settles O14, by the three things a step can do: idle, answer Illegal, or have the effect of one command. -/
theorem stepKeepsParameters : Obligations.StepKeepsParameters := by
  intro s t hstep
  rcases step_cases hstep with ⟨-, rfl⟩ | ⟨c, rest, -, ⟨-, rfl⟩ | ⟨i, -, hexec⟩⟩
  · exact ⟨rfl, rfl⟩
  · simp only [State.respond_cfg, State.respond_nConn, State.accept_cfg, State.accept_nConn, and_self]
  · obtain ⟨r, heffect⟩ := effect_of_exec hexec
    exact ⟨heffect.cfg_eq, heffect.nConn_eq⟩

end Sys2Proof.Machine
end

section
/-! PROOFS. The state family (10_state.md): the invariant of every step, and which command can change, or depend on,
which context, register and buffer. -/

namespace Sys2Proof.Machine

/-! ## Well-formed responses -/

theorem Response.WellFormed.failure (p : Params) (e : ErrorKind) : (Response.failure e).WellFormed p where
  error _ := ⟨rfl, rfl⟩
  notes := Nat.zero_le _
  state _ h := absurd h List.not_mem_nil
  result _ h := nomatch h
  data _ h := absurd h List.not_mem_nil

/-- Without notifications only the size of the result is left to check (R62). -/
theorem Response.WellFormed.of_result {p : Params} {result : Option Result}
    (h : ∀ v, result = some v → ∀ B ∈ v.byteFields, B.length ≤ p.maxOperandBytes) :
    (Response.success result []).WellFormed p where
  error hne := absurd rfl hne
  notes := Nat.zero_le _
  state _ h := absurd h List.not_mem_nil
  result := h
  data _ h := absurd h List.not_mem_nil

/-- A StateChange may name ESTABLISHED, LISTEN or FIN_WAIT_1 (R276). -/
theorem Response.WellFormed.of_noteState (p : Params) (cb : BitVec 2) {x : TcpState}
    (hx : x = .established ∨ x = .listen ∨ x = .finWait1) :
    (Response.success none (noteState cb x)).WellFormed p where
  error hne := absurd rfl hne
  notes := noteState_length_le cb x
  state y hy := by
    obtain ⟨-, hxy⟩ := mem_noteState hy
    cases hxy
    rcases hx with rfl | rfl | rfl <;> decide
  result _ h := nomatch h
  data _ hB := nomatch (mem_noteState hB).2

theorem Response.WellFormed.of_noteData {p : Params} (cb : BitVec 2) {data : Bytes}
    (h : data.length ≤ p.maxOperandBytes) : (Response.success none (noteData cb data)).WellFormed p where
  error hne := absurd rfl hne
  notes := noteData_length_le cb data
  state _ hx := nomatch (mem_noteData hx).2
  result _ h := nomatch h
  data B hB := by
    obtain ⟨-, hBd⟩ := mem_noteData hB
    cases hBd
    exact h

/-! ## Stable contexts -/

/-- CONN.CREATE leaves a stable context, whatever its operands (R30, R31). -/
theorem connCreated_stable (p : Params) (x : FCreate) : (connCreated p x).Stable p where
  state := .inl rfl
  sndWnd := rfl
  rcvWnd := rfl
  cwnd := rfl
  ssthresh := rfl
  sndBuf _ _ := Nat.zero_le _
  rcvBuf _ _ := Nat.zero_le _

/-- What a CONN.* command leaves of a stable context is stable: it ends in a held state (R28), and appends to a
buffer only within CONN_BUF_CAP (R31). -/
theorem ContextEffect.stable {k : BitVec 8} {s : State} {c : Conn} {i : Instr} {d : Done}
    (h : ContextEffect k s c i d) (hc : c.Stable s.cfg) : d.conn.Stable s.cfg := by
  cases h with
  | create => exact connCreated_stable ..
  | connect d h =>
    obtain ⟨-, rfl⟩ := connConnected_ok h
    exact { hc with state := .inr (.inr rfl) }
  | listen => exact { hc with state := .inr (.inl rfl) }
  | send d h =>
    obtain ⟨-, hcap, rfl⟩ := connSent_ok h
    exact { hc with sndBuf := by simpa only [List.length_append] using (withinCap_iff _ _).mp hcap }
  | recv d h =>
    obtain ⟨hcap, rfl⟩ := connReceived_ok h
    exact { hc with rcvBuf := by simpa only [List.length_append] using (withinCap_iff _ _).mp hcap }
  | close =>
    rw [connClosed_eq]
    split
    · exact hc
    · exact { hc with state := .inl rfl }
  | setCb e => exact { hc with }
  | rdReg r => exact hc
  | rdBuf b => exact hc

/-- The response of a CONN.* command whose operands are within the limit is well formed. -/
theorem ContextEffect.response_wellFormed {k : BitVec 8} {s : State} {c : Conn} {i : Instr} {d : Done}
    (h : ContextEffect k s c i d) (ho : ∀ B ∈ s.op.byteFields i.format, B.length ≤ s.cfg.maxOperandBytes) :
    (Response.success d.result d.notes).WellFormed s.cfg := by
  cases h with
  | create => exact .of_result nofun
  | connect d h =>
    obtain ⟨-, rfl⟩ := connConnected_ok h
    exact .of_noteState _ _ (.inl rfl)
  | listen => exact .of_noteState _ _ (.inr (.inl rfl))
  | send d h =>
    obtain ⟨-, -, rfl⟩ := connSent_ok h
    exact .of_result nofun
  | recv d h =>
    obtain ⟨-, rfl⟩ := connReceived_ok h
    exact .of_noteData _ (ho _ List.mem_cons_self)
  | close =>
    rw [connClosed_eq]
    split
    · exact .of_result nofun
    · exact .of_noteState _ _ (.inr (.inr rfl))
  | setCb e => exact .of_result nofun
  | rdReg r =>
    refine .of_result ?_
    rintro v ⟨⟩ B hB
    exact absurd hB List.not_mem_nil
  | rdBuf b hlen =>
    refine .of_result ?_
    rintro v ⟨⟩ B hB
    rwa [List.mem_singleton.mp hB]

/-! ## The invariant -/

theorem State.Inv.accept {s : State} (h : s.Inv) (c : Command) (rest : List Command) : (s.accept c rest).Inv :=
  { h with }

theorem State.Inv.advanceDraws {s : State} (h : s.Inv) (n : Nat) : (s.advanceDraws n).Inv := { h with }

theorem State.Inv.respond {s : State} {r : Response} (h : s.Inv) (hr : r.WellFormed s.cfg) : (s.respond r).Inv :=
  { h with
    responses := fun r' hr' => by
      rcases List.mem_append.mp hr' with hold | hnew
      · exact h.responses r' hold
      · rwa [List.mem_singleton.mp hnew] }

theorem State.Inv.setConn {s : State} {c : Conn} (h : s.Inv) (k : BitVec 8) (hc : c.Stable s.cfg) :
    (s.setConn k c).Inv where
  nConn_pos := by simpa only [State.setConn_nConn] using h.nConn_pos
  nConn_le := by simpa only [State.setConn_nConn] using h.nConn_le
  conns c' hc' := by
    rcases List.mem_or_eq_of_mem_set hc' with hold | rfl
    · exact h.conns c' hold
    · exact hc
  responses := h.responses

theorem State.Inv.stable_of_conn? {s : State} {k : BitVec 8} {c : Conn} (h : s.Inv) (hc : s.conn? k = some c) :
    c.Stable s.cfg := h.conns c (List.mem_of_getElem? hc)

/-- Every effect of a command keeps the invariant. -/
theorem Effect.inv {i : Instr} {s t : State} {r : Response} (h : Effect i s t r) (hs : s.Inv) : t.Inv := by
  cases h with
  | failed e => exact hs.respond (.failure _ e)
  | pure r hk hr =>
    refine hs.respond (.of_result ?_)
    rintro v ⟨⟩
    exact hr
  | onContext k c d hk hc ho h =>
    have hconn : (s.setConn k d.conn).Inv := hs.setConn k (h.stable (hs.stable_of_conn? hc))
    exact (hconn.advanceDraws d.draws).respond (h.response_wellFormed ho)

/-- Settles O13, by the three things a step can do: idle, answer Illegal, or have the effect of one command. -/
theorem stepKeepsInvariant : Obligations.StepKeepsInvariant := by
  intro s t hs hstep
  rcases step_cases hstep with ⟨-, rfl⟩ | ⟨c, rest, -, ⟨-, rfl⟩ | ⟨i, -, hexec⟩⟩
  · exact hs
  · exact (hs.accept c rest).respond (.failure _ .illegal)
  · obtain ⟨r, heffect⟩ := effect_of_exec hexec
    exact heffect.inv (hs.accept c rest)

/-! ## Which context a command changes -/

/-- A command leaves every context it does not address as it was (R33). -/
theorem Effect.conn?_eq {i : Instr} {s t : State} {r : Response} {k : BitVec 8} (h : Effect i s t r)
    (hk : i.context? ≠ some k) : t.conn? k = s.conn? k := by
  cases h with
  | failed e => exact State.respond_conn? ..
  | pure r => exact State.respond_conn? ..
  | onContext j c d hj =>
    have hjk : j ≠ k := by
      rintro rfl
      exact hk hj
    calc (((s.setConn j d.conn).advanceDraws d.draws).respond _).conn? k
      _ = (s.setConn j d.conn).conn? k := by rw [State.respond_conn?, State.advanceDraws_conn?]
      _ = s.conn? k := State.conn?_setConn_ne hjk s d.conn

/-- Settles O16: an idle step and an Illegal answer change no context, and a command only the one it addresses. -/
theorem onlyAddressedContextChanges : Obligations.OnlyAddressedContextChanges := by
  intro s t k hstep hchange
  rcases step_cases hstep with ⟨-, rfl⟩ | ⟨c, rest, hpending, ⟨-, rfl⟩ | ⟨i, hdecode, hexec⟩⟩
  · exact absurd rfl hchange
  · exact absurd (by rw [State.respond_conn?, State.accept_conn?]) hchange
  · refine ⟨c, rest, i, hpending, hdecode, ?_⟩
    obtain ⟨r, heffect⟩ := effect_of_exec hexec
    by_contra hk
    exact hchange (by rw [heffect.conn?_eq hk, State.accept_conn?])

/-! ## Which registers and buffers a command changes -/

/-- What context k holds after a command: what it held before, or what the command leaves there by its effect on k. -/
theorem Effect.conn_cases {i : Instr} {s t : State} {r : Response} {k : BitVec 8} {c d : Conn} (h : Effect i s t r)
    (hc : s.conn? k = some c) (hd : t.conn? k = some d) :
    d = c ∨ ∃ done, ContextEffect k s c i done ∧ done.conn = d := by
  by_cases hk : i.context? = some k
  · cases h with
    | failed e => exact .inl (Option.some.inj (hd.symm.trans hc))
    | pure r hnone => exact absurd (hnone.symm.trans hk) nofun
    | onContext j c' done hj hc' ho heffect =>
      obtain rfl : j = k := Option.some.inj (hj.symm.trans hk)
      obtain rfl : c' = c := Option.some.inj (hc'.symm.trans hc)
      rw [State.respond_conn?, State.advanceDraws_conn?, State.conn?_setConn_self hc] at hd
      exact .inr ⟨done, heffect, Option.some.inj hd⟩
  · rw [h.conn?_eq hk, hc] at hd
    exact .inl (Option.some.inj hd.symm)

/-- Settles O21: each CONN.* command's effect, register by register. -/
theorem registerWriters : Obligations.RegisterWriters := by
  intro i s t k c d hexec hc hd
  obtain ⟨r, heffect⟩ := effect_of_exec hexec
  rcases heffect.conn_cases hc hd with rfl | ⟨done, hdone, rfl⟩
  · simp
  · cases hdone with
    | create => simp
    | connect done h =>
      obtain ⟨-, rfl⟩ := connConnected_ok h
      simp
    | listen => simp [connListening]
    | send done h =>
      obtain ⟨-, -, rfl⟩ := connSent_ok h
      simp
    | recv done h =>
      obtain ⟨-, rfl⟩ := connReceived_ok h
      simp
    | close =>
      rw [connClosed_eq]
      split <;> simp
    | setCb e => simp
    | rdReg r => simp
    | rdBuf b => simp

/-- A CONN.* command other than CONN.CREATE keeps each buffer or appends to it (R31). -/
theorem ContextEffect.buffers_grow {k : BitVec 8} {s : State} {c : Conn} {i : Instr} {d : Done}
    (h : ContextEffect k s c i d) (hi : i ≠ .connCreate k) :
    c.sndBuf <+: d.conn.sndBuf ∧ c.rcvBuf <+: d.conn.rcvBuf := by
  cases h with
  | create => exact absurd rfl hi
  | connect d h =>
    obtain ⟨-, rfl⟩ := connConnected_ok h
    exact ⟨List.prefix_rfl, List.prefix_rfl⟩
  | listen => exact ⟨List.prefix_rfl, List.prefix_rfl⟩
  | send d h =>
    obtain ⟨-, -, rfl⟩ := connSent_ok h
    exact ⟨List.prefix_append .., List.prefix_rfl⟩
  | recv d h =>
    obtain ⟨-, rfl⟩ := connReceived_ok h
    exact ⟨List.prefix_rfl, List.prefix_append ..⟩
  | close =>
    rw [connClosed_eq]
    split <;> exact ⟨List.prefix_rfl, List.prefix_rfl⟩
  | setCb e => exact ⟨List.prefix_rfl, List.prefix_rfl⟩
  | rdReg r => exact ⟨List.prefix_rfl, List.prefix_rfl⟩
  | rdBuf b => exact ⟨List.prefix_rfl, List.prefix_rfl⟩

/-- Settles O22: the context is as it was, or is what a CONN.* command other than CONN.CREATE leaves. -/
theorem buffersOnlyGrow : Obligations.BuffersOnlyGrow := by
  intro i s t k c d hexec hc hd hi
  obtain ⟨r, heffect⟩ := effect_of_exec hexec
  rcases heffect.conn_cases hc hd with rfl | ⟨done, hdone, rfl⟩
  · exact ⟨List.prefix_rfl, List.prefix_rfl⟩
  · exact hdone.buffers_grow hi

/-! ## What a command depends on -/

/-- The response of a context-free command is fixed by the parameters and the operand record. -/
theorem State.stateless_response (p : Params) (op : OperandRecord) (f : Format)
    (run : Params → OperandRecord → Except ErrorKind Result) :
    ∃ r, ∀ s : State, s.cfg = p → s.op = op → s.stateless f (run s.cfg) = .next (s.respond r) := by
  cases hsize : oversized p f op with
  | true =>
    refine ⟨.failure .tooLarge, ?_⟩
    rintro s rfl rfl
    simp only [State.stateless, hsize, if_true, State.raise]
  | false =>
    have hfits := (not_oversized_iff p f op).mp hsize
    cases hrun : run p op with
    | error e =>
      refine ⟨.failure e, ?_⟩
      rintro s rfl rfl
      exact State.stateless_error hfits hrun
    | ok r =>
      refine ⟨.success (some r) [], ?_⟩
      rintro s rfl rfl
      exact State.stateless_ok hfits hrun

/-- Settles O17: a context-free command is `stateless` of a function of the parameters, so its response is fixed. -/
theorem contextFreeCommandsArePure : Obligations.ContextFreeCommandsArePure := by
  intro i s u hnone hop hcfg
  obtain ⟨run, hexec, -⟩ := exec_contextFree hnone
  obtain ⟨r, hr⟩ := State.stateless_response u.cfg u.op i.format run
  exact ⟨r, (hexec s).trans (hr s hcfg hop), (hexec u).trans (hr u rfl rfl)⟩

/-- The response of a CONN.* command on context k, and what k holds after it, are fixed by what k held, the parameters
and the operand record. -/
theorem State.onContext_outcome (k : BitVec 8) (held : Option Conn) (p : Params) (op : OperandRecord) (f : Format)
    (run : Conn → Except ErrorKind Done) :
    ∃ r after, ∀ s : State, s.conn? k = held → s.cfg = p → s.op = op →
      ∃ t, s.onContext k f run = .next t ∧ t.conn? k = after ∧ t.responses = s.responses ++ [r] := by
  cases held with
  | none =>
    exact ⟨.failure .illegal, none, fun s hc _ _ => ⟨_, State.onContext_illegal f run hc, hc, rfl⟩⟩
  | some c =>
    cases hsize : oversized p f op with
    | true =>
      obtain ⟨B, hB, hlen⟩ := (oversized_iff p f op).mp hsize
      refine ⟨.failure .tooLarge, some c, ?_⟩
      rintro s hc rfl rfl
      exact ⟨_, State.onContext_oversized run hc hB hlen, hc, rfl⟩
    | false =>
      have hfits := (not_oversized_iff p f op).mp hsize
      cases hrun : run c with
      | error e =>
        refine ⟨.failure e, some c, ?_⟩
        rintro s hc rfl rfl
        exact ⟨_, State.onContext_error hc hfits hrun, hc, rfl⟩
      | ok d =>
        refine ⟨.success d.result d.notes, some d.conn, ?_⟩
        rintro s hc rfl rfl
        exact ⟨_, State.onContext_ok hc hfits hrun, State.conn?_setConn_self hc d.conn, rfl⟩

/-- Settles O18: a CONN.* command is `onContext` of a function of the parameters, the operand record and the draw. -/
theorem contextCommandsReadOnlyTheirContext : Obligations.ContextCommandsReadOnlyTheirContext := by
  intro i k s u t v hk hconn hop hcfg hdraws hs hu
  obtain ⟨run, hexec⟩ := exec_onContext hk
  have hisn : s.isn = u.isn := congrArg Config.isnDraw hdraws
  obtain ⟨r, after, hout⟩ := State.onContext_outcome k (u.conn? k) u.cfg u.op i.format (run u.cfg u.op u.isn)
  obtain ⟨t', ht, htconn, htresp⟩ := hout s hconn hcfg hop
  obtain ⟨v', hv, hvconn, hvresp⟩ := hout u rfl rfl rfl
  rw [hexec, hcfg, hop, hisn, ht] at hs
  rw [hexec, hv] at hu
  cases hs
  cases hu
  exact ⟨htconn.trans hvconn.symm, r, htresp, hvresp⟩

/-! ## Idle steps and reset -/

/-- Settles O7: the port performs nothing where no command is presented (log entry 5). -/
theorem idleStepChangesNothing : Obligations.IdleStepChangesNothing := by
  intro s hpending
  simp only [step, State.performNext, hpending]

/-- A hardware reset puts every context the block has at its reset values (R300, R32). -/
theorem State.hardwareReset_conn? {s : State} {k : BitVec 8} (hk : k.toNat < s.nConn) :
    s.hardwareReset.conn? k = some (Conn.reset s.cfg) := by
  simp [State.hardwareReset, State.resetWith, State.conn?, hk]

/-- CONN.CREATE on a context the block has always succeeds: its format has no byte sequence to be too long (R231). -/
theorem exec_connCreate {s : State} {k : BitVec 8} {c : Conn} (hc : s.conn? k = some c) :
    exec (.connCreate k) s =
      .next ((s.setConn k (connCreated s.cfg s.op.create)).respond (.success none [])) :=
  State.onContext_ok (f := .create) (run := fun _ => .ok { conn := connCreated s.cfg s.op.create }) hc nofun rfl

/-- Settles O11: the context CONN.CREATE leaves for a record of zeros is the one hardware reset leaves. -/
theorem resetIsCreateWithZeros : Obligations.ResetIsCreateWithZeros := by
  intro s k hk hzero
  obtain ⟨c, hc⟩ := State.exists_conn? hk
  have hreset : connCreated s.cfg s.op.create = Conn.reset s.cfg := by
    rw [hzero]
    rfl
  have hheld : (s.setConn k (connCreated s.cfg s.op.create)).conn? k = some (Conn.reset s.cfg) := by
    rw [State.conn?_setConn_self hc, hreset]
  refine ⟨_, exec_connCreate hc, ?_, ?_⟩
  · rw [State.respond_conn?, hheld, State.hardwareReset_conn? hk]
  · rw [State.respond_conn?, hheld, Option.isSome_some]

end Sys2Proof.Machine
end

section
/-! PROOFS. The memory family (20_memory.md): every command completes with one response, and the common length check
comes before a command's own checks. -/

namespace Sys2Proof.Machine

/-! ## Completion -/

/-- Every effect of a command adds its one response after those not yet taken (R83). -/
theorem Effect.responses_eq {i : Instr} {s t : State} {r : Response} (h : Effect i s t r) :
    t.responses = s.responses ++ [r] := by
  cases h with
  | failed e => exact State.respond_responses ..
  | pure r => exact State.respond_responses ..
  | onContext k c d => simp only [State.respond_responses, State.advanceDraws_responses, State.setConn_responses]

/-- No effect of a command touches the commands presented after it. -/
theorem Effect.pending_eq {i : Instr} {s t : State} {r : Response} (h : Effect i s t r) : t.pending = s.pending := by
  cases h with
  | failed e => exact State.respond_pending ..
  | pure r => exact State.respond_pending ..
  | onContext k c d => simp only [State.respond_pending, State.advanceDraws_pending, State.setConn_pending]

/-- A command completes at every state, whatever its operands (R74). -/
theorem exec_completes (i : Instr) (s : State) :
    ∃ t r, exec i s = .next t ∧ t.responses = s.responses ++ [r] ∧ t.pending = s.pending := by
  obtain ⟨t, r, hexec, heffect⟩ := exec_effect i s
  exact ⟨t, r, hexec, heffect.responses_eq, heffect.pending_eq⟩

/-- A word that decodes to no command is answered Illegal (60_exceptions.md R271). -/
theorem perform_of_decode_error {w : Word} {e : DecodeError} (h : decode w = .error e) (s : State) :
    s.perform w = .next (s.respond (.failure .illegal)) := by
  simp only [State.perform, h, State.raise]

/-- Performing a word completes whether or not it is legal. -/
theorem perform_completes (s : State) (w : Word) :
    ∃ t r, s.perform w = .next t ∧ t.responses = s.responses ++ [r] ∧ t.pending = s.pending := by
  cases hdecode : decode w with
  | error e =>
    exact ⟨_, _, perform_of_decode_error hdecode s, State.respond_responses .., State.respond_pending ..⟩
  | ok i =>
    rw [perform_of_decode_ok hdecode]
    exact exec_completes i s

/-- Settles O8: every effect of a command adds one response, and a step performs the accepted command's word. -/
theorem everyCommandCompletes : Obligations.EveryCommandCompletes := by
  refine ⟨exec_completes, fun s c rest hpending => ?_⟩
  obtain ⟨t, r, hperform, hresponses, hrest⟩ := perform_completes (s.accept c rest) c.word
  exact ⟨t, r, (step_of_pending_cons hpending).trans hperform, hrest, hresponses⟩

/-! ## The common length check -/

/-- A well-formed CONN.* command addresses a context the block has. -/
theorem exists_conn?_of_wellFormed {s : State} {i : Instr} {k : BitVec 8} (hwf : i.wellFormed s.nConn = true)
    (hk : i.context? = some k) : ∃ c, s.conn? k = some c := by
  simp only [Instr.wellFormed, hk, decide_eq_true_eq] at hwf
  exact State.exists_conn? hwf

/-- Settles O20: a command is `stateless` or `onContext` of some function of its own, and both check the lengths of
the operand record before they run it. -/
theorem oversizedOperandIsTooLarge : Obligations.OversizedOperandIsTooLarge := by
  intro i s B hwf hB hlen
  cases hk : i.context? with
  | none =>
    obtain ⟨run, hexec, -⟩ := exec_contextFree hk
    exact (hexec s).trans (State.stateless_oversized _ hB hlen)
  | some k =>
    obtain ⟨run, hexec⟩ := exec_onContext hk
    obtain ⟨c, hc⟩ := exists_conn?_of_wellFormed hwf hk
    exact (hexec s).trans (State.onContext_oversized _ hc hB hlen)

end Sys2Proof.Machine
end

section
/-! PROOFS. The encoding family (30_encoding.md): decoding and encoding are inverse, the legal command words, what an
illegal one answers, and that a command reads its own operand format only. -/

namespace Sys2Proof

open BitVec (extractLsb'_append_eq_left extractLsb'_append_eq_right extractLsb'_append_extractLsb')

/-! ## Building a command from its fields -/

theorem contextFree_eq_ok_iff {ctx : BitVec 8} {r : Except DecodeError Instr} {i : Instr} :
    contextFree ctx r = .ok i ↔ ctx = 0#8 ∧ r = .ok i := by
  unfold contextFree
  split <;> simp [*]

/-- The check of R85(e), whichever bits of ARG it looks at. -/
theorem ite_argBits_eq_ok_iff {p : Prop} [Decidable p] {i j : Instr} :
    (if p then .ok j else .error DecodeError.argBits : Except DecodeError Instr) = .ok i ↔ p ∧ j = i := by
  split <;> simp [*]

theorem noArg_eq_ok_iff {arg : BitVec 8} {i j : Instr} : noArg arg j = .ok i ↔ arg = 0#8 ∧ j = i :=
  ite_argBits_eq_ok_iff

/-- The select bit of R87 names one buffer. -/
@[simp] theorem BufSel.ofBit_bit (b : BufSel) : BufSel.ofBit b.bit = b := by cases b <;> rfl

@[simp] theorem BufSel.bit_ofBit (s : BitVec 1) : (BufSel.ofBit s).bit = s := by
  rcases BitVec.eq_zero_or_eq_one s with rfl | rfl <;> rfl

/-- An ARG with no bit outside the opcode's field is the field with zeros above it (R87). -/
theorem zero_append_extractLsb' {m n : Nat} {arg : BitVec (m + n)} (h : arg.extractLsb' n m = 0#m) :
    0#m ++ arg.extractLsb' 0 n = arg :=
  calc 0#m ++ arg.extractLsb' 0 n
    _ = arg.extractLsb' n m ++ arg.extractLsb' 0 n := by rw [h]
    _ = arg := extractLsb'_append_extractLsb'

/-- A command is what its opcode builds from its CTX and ARG (R84, R87, R88). -/
theorem Instr.build_fields (i : Instr) : i.opcode.build i.ctx i.arg = .ok i := by
  cases i with
  | tcpHasFlag m =>
    have harg : (0#2 ++ m).extractLsb' 0 6 = m := extractLsb'_append_eq_right
    exact contextFree_eq_ok_iff.mpr
      ⟨rfl, ite_argBits_eq_ok_iff.mpr ⟨extractLsb'_append_eq_left, congrArg Instr.tcpHasFlag harg⟩⟩
  | connSetCb k e =>
    have harg : (0#6 ++ e).extractLsb' 0 2 = e := extractLsb'_append_eq_right
    exact ite_argBits_eq_ok_iff.mpr ⟨extractLsb'_append_eq_left, congrArg (Instr.connSetCb k) harg⟩
  | connRdReg k r =>
    simp only [Instr.opcode, Opcode.build, Instr.arg, Reg.ofNumber?_number]
    rfl
  | connRdBuf k b =>
    have harg : BufSel.ofBit ((0#7 ++ b.bit).extractLsb' 0 1) = b := by
      rw [extractLsb'_append_eq_right, BufSel.ofBit_bit]
    exact ite_argBits_eq_ok_iff.mpr ⟨extractLsb'_append_eq_left, congrArg (Instr.connRdBuf k) harg⟩
  | csum | tcsum | ethEnc | ethDec | ethIsBcast | ethIsMcast | ipEnc | ipDec | ipIsFrag | ipIsFirst | tcpEnc | tcpDec
  | udpEnc | udpDec | icmpEnc | icmpDec | icmpIsReq | icmpIsRep | icmpReply
  | connCreate | connConnect | connListen | connSend | connRecv | connClose => rfl

/-- The command that an opcode builds from a CTX and an ARG has that opcode, CTX and ARG. -/
theorem Opcode.fields_of_build {o : Opcode} {ctx arg : BitVec 8} {i : Instr} (h : o.build ctx arg = .ok i) :
    i.opcode = o ∧ i.ctx = ctx ∧ i.arg = arg := by
  cases o with
  | csum | tcsum | ethEnc | ethDec | ethIsBcast | ethIsMcast | ipEnc | ipDec | ipIsFrag | ipIsFirst | tcpEnc | tcpDec
  | udpEnc | udpDec | icmpEnc | icmpDec | icmpIsReq | icmpIsRep | icmpReply =>
    obtain ⟨rfl, harg⟩ := contextFree_eq_ok_iff.mp h
    obtain ⟨rfl, rfl⟩ := noArg_eq_ok_iff.mp harg
    exact ⟨rfl, rfl, rfl⟩
  | connCreate | connConnect | connListen | connSend | connRecv | connClose =>
    obtain ⟨rfl, rfl⟩ := noArg_eq_ok_iff.mp h
    exact ⟨rfl, rfl, rfl⟩
  | tcpHasFlag =>
    obtain ⟨rfl, harg⟩ := contextFree_eq_ok_iff.mp h
    obtain ⟨hbits, rfl⟩ := ite_argBits_eq_ok_iff.mp harg
    exact ⟨rfl, rfl, zero_append_extractLsb' (m := 2) (n := 6) hbits⟩
  | connSetCb =>
    obtain ⟨hbits, rfl⟩ := ite_argBits_eq_ok_iff.mp h
    exact ⟨rfl, rfl, zero_append_extractLsb' (m := 6) (n := 2) hbits⟩
  | connRdReg =>
    simp only [Opcode.build] at h
    split at h <;> cases h
    exact ⟨rfl, rfl, Reg.number_of_ofNumber? ‹_›⟩
  | connRdBuf =>
    obtain ⟨hbits, rfl⟩ := ite_argBits_eq_ok_iff.mp h
    refine ⟨rfl, rfl, ?_⟩
    rw [Instr.arg, BufSel.bit_ofBit]
    exact zero_append_extractLsb' (m := 7) (n := 1) hbits

/-! ## Decoding and encoding -/

/-- Only a word with a defined OP and RSV = 0 decodes, to what its opcode builds from its CTX and ARG. -/
theorem decode_ok_cases {w : Word} {i : Instr} (h : decode w = .ok i) :
    ∃ o : Opcode, o.byte = opField w ∧ rsvField w = 0#8 ∧ o.build (ctxField w) (argField w) = .ok i := by
  unfold decode at h
  split at h
  · cases h
  · split at h
    · exact ⟨_, Opcode.byte_of_ofByte? ‹_›, ‹_›, h⟩
    · cases h

/-- Settles O1: decoding a word made of fields is building from them, and a command is built from its own fields. -/
theorem decodeEncodeRoundTrip : Obligations.DecodeEncodeRoundTrip := by
  intro i
  calc decode (encode i)
    _ = i.opcode.build i.ctx i.arg := decode_commandWord ..
    _ = .ok i := i.build_fields

/-- Settles O2: the decoded command has the word's OP, CTX and ARG, and a word with RSV = 0 is made of those. -/
theorem encodeDecodeRoundTrip : Obligations.EncodeDecodeRoundTrip := by
  intro w i hdecode
  obtain ⟨o, hop, hrsv, hbuild⟩ := decode_ok_cases hdecode
  obtain ⟨rfl, hctx, harg⟩ := Opcode.fields_of_build hbuild
  calc encode i
    _ = commandWord (ctxField w) (argField w) (opField w) := by rw [encode, hctx, harg, hop]
    _ = w := commandWord_fields hrsv

/-- A word decodes to the command it is the word of (R80, R84). -/
theorem decode_eq_ok_iff {w : Word} {i : Instr} : decode w = .ok i ↔ encode i = w := by
  refine ⟨encodeDecodeRoundTrip w i, ?_⟩
  rintro rfl
  exact decodeEncodeRoundTrip i

/-! ## The codes of opcodes and registers as numbers -/

theorem numbers_of_opcodes : Opcode.all.map (fun o => o.byte.toNat) = opNumbers := rfl

theorem numbers_of_registers : Reg.all.map (fun r => r.number.toNat) = List.range 14 := rfl

theorem Opcode.mem_all (o : Opcode) : o ∈ Opcode.all := by cases o <;> decide

theorem mem_opNumbers_iff {op : BitVec 8} : op.toNat ∈ opNumbers ↔ ∃ o : Opcode, o.byte = op := by
  rw [← numbers_of_opcodes, List.mem_map]
  constructor
  · rintro ⟨o, -, ho⟩
    exact ⟨o, BitVec.eq_of_toNat_eq ho⟩
  · rintro ⟨o, rfl⟩
    exact ⟨o, o.mem_all, rfl⟩

/-- Every number below 14 is a register's (10_state.md R26). -/
theorem Reg.exists_number {n : BitVec 8} (h : n.toNat < 14) : ∃ r : Reg, r.number = n := by
  have hmem : n.toNat ∈ Reg.all.map fun r => r.number.toNat := by
    rwa [numbers_of_registers, List.mem_range]
  obtain ⟨r, -, hr⟩ := List.mem_map.mp hmem
  exact ⟨r, BitVec.eq_of_toNat_eq hr⟩

theorem Reg.number_lt (r : Reg) : r.number.toNat < 14 := by cases r <;> decide

/-! ## Legal words -/

/-- CTX and ARG pass the cases (c), (d), (e) and (f) of R85 for opcode `o` in a block of `nConn` contexts. -/
structure Opcode.FieldsLegal (nConn : Nat) (o : Opcode) (ctx arg : BitVec 8) : Prop where
  contextFree : o.byte.toNat < 0x60 → ctx = 0#8
  context : 0x60 ≤ o.byte.toNat → ctx.toNat < nConn
  argBits : arg.toNat < argLimit o.byte.toNat
  register : o.byte.toNat = 0x67 → arg.toNat < 14

/-- The cases of R85 by the fields of the word: (a) and (b) are about OP and RSV, the others about CTX and ARG. -/
theorem not_illegalWord_iff {nConn : Nat} {w : Word} :
    ¬ IllegalWord nConn w ↔
      rsvField w = 0#8 ∧ ∃ o : Opcode, o.byte = opField w ∧ o.FieldsLegal nConn (ctxField w) (argField w) := by
  have hop : w.toNat % 2 ^ 8 = (opField w).toNat := by simp [opField]
  have harg : w.toNat / 2 ^ 8 % 2 ^ 8 = (argField w).toNat := by simp [argField, Nat.shiftRight_eq_div_pow]
  have hctx : w.toNat / 2 ^ 16 % 2 ^ 8 = (ctxField w).toNat := by simp [ctxField, Nat.shiftRight_eq_div_pow]
  have hrsv : w.toNat / 2 ^ 24 = (rsvField w).toNat := by
    have := w.isLt
    simp only [rsvField, BitVec.extractLsb'_toNat, Nat.shiftRight_eq_div_pow]
    omega
  have hzero (x : BitVec 8) : x.toNat = 0 ↔ x = 0#8 := ⟨fun h => BitVec.eq_of_toNat_eq h, congrArg BitVec.toNat⟩
  simp only [IllegalWord, hop, harg, hctx, hrsv]
  constructor
  · intro h
    push Not at h
    obtain ⟨hdefined, hreserved, hfree, hcontext, hbits, hregister⟩ := h
    obtain ⟨o, ho⟩ := mem_opNumbers_iff.mp hdefined
    rw [← ho] at hfree hcontext hbits hregister
    exact ⟨(hzero _).mp hreserved, o, ho, fun h => (hzero _).mp (hfree h), hcontext, hbits, hregister⟩
  · rintro ⟨hreserved, o, ho, hlegal⟩
    push Not
    rw [← ho]
    exact ⟨mem_opNumbers_iff.mpr ⟨o, rfl⟩, (hzero _).mpr hreserved, fun h => (hzero _).mpr (hlegal.contextFree h),
      hlegal.context, hlegal.argBits, hlegal.register⟩

/-- The context-free opcodes are those below 0x60 (R85(c)). -/
theorem Instr.opcode_lt_iff (i : Instr) : i.opcode.byte.toNat < 0x60 ↔ i.context? = none := by
  cases i with
  | csum | tcsum | ethEnc | ethDec | ethIsBcast | ethIsMcast | ipEnc | ipDec | ipIsFrag | ipIsFirst | tcpEnc | tcpDec
  | tcpHasFlag | udpEnc | udpDec | icmpEnc | icmpDec | icmpIsReq | icmpIsRep | icmpReply =>
    exact iff_of_true (by simp only [Instr.opcode]; decide) rfl
  | connCreate | connConnect | connListen | connSend | connRecv | connClose | connSetCb | connRdReg | connRdBuf =>
    exact iff_of_false (by simp only [Instr.opcode]; decide) nofun

/-- The ARG of a command's word is within its opcode's field (R87). -/
theorem Instr.arg_lt_argLimit (i : Instr) : i.arg.toNat < argLimit i.opcode.byte.toNat := by
  have zero_append_lt {m n : Nat} (v : BitVec n) : (0#m ++ v).toNat < 2 ^ n := by
    rw [Machine.toNat_append_eq, BitVec.toNat_ofNat, Nat.zero_mod, Nat.zero_mul, Nat.zero_add]
    exact v.isLt
  cases i with
  | tcpHasFlag m => exact zero_append_lt m
  | connSetCb k e => exact zero_append_lt e
  | connRdReg k r => exact r.number.isLt
  | connRdBuf k b => exact zero_append_lt b.bit
  | csum | tcsum | ethEnc | ethDec | ethIsBcast | ethIsMcast | ipEnc | ipDec | ipIsFrag | ipIsFirst | tcpEnc | tcpDec
  | udpEnc | udpDec | icmpEnc | icmpDec | icmpIsReq | icmpIsRep | icmpReply
  | connCreate | connConnect | connListen | connSend | connRecv | connClose =>
    exact Nat.zero_lt_one

/-- The ARG of CONN.RDREG's word is the number of a register (R85(f)). -/
theorem Instr.arg_lt_of_rdReg {i : Instr} (h : i.opcode.byte.toNat = 0x67) : i.arg.toNat < 14 := by
  cases i with
  | connRdReg k r => exact r.number_lt
  | _ => exact absurd h (by simp only [Instr.opcode]; decide)

/-- The fields of a command's word are legal exactly when the block has the context the command addresses. -/
theorem Instr.fieldsLegal_iff {nConn : Nat} (i : Instr) :
    i.opcode.FieldsLegal nConn i.ctx i.arg ↔ i.wellFormed nConn = true := by
  have hlt := i.opcode_lt_iff
  cases hk : i.context? with
  | none =>
    have hfree : i.opcode.byte.toNat < 0x60 := hlt.mpr hk
    have hctx : i.ctx = 0#8 := by rw [Instr.ctx, hk, Option.getD_none]
    have hwf : i.wellFormed nConn = true := by simp only [Instr.wellFormed, hk]
    exact iff_of_true ⟨fun _ => hctx, fun h => absurd hfree h.not_gt, i.arg_lt_argLimit, i.arg_lt_of_rdReg⟩ hwf
  | some k =>
    have hconn : 0x60 ≤ i.opcode.byte.toNat := not_lt.mp fun h => nomatch hk.symm.trans (hlt.mp h)
    have hctx : i.ctx = k := by rw [Instr.ctx, hk, Option.getD_some]
    have hwf : i.wellFormed nConn = true ↔ i.ctx.toNat < nConn := by
      simp only [Instr.wellFormed, hk, hctx, decide_eq_true_eq]
    rw [hwf]
    exact ⟨fun h => h.context hconn,
      fun h => ⟨fun hfree => absurd hconn hfree.not_ge, fun _ => h, i.arg_lt_argLimit, i.arg_lt_of_rdReg⟩⟩

/-- No bit of a small ARG is outside its field. -/
theorem extractLsb'_eq_zero_of_lt {m n : Nat} {arg : BitVec (m + n)} (h : arg.toNat < 2 ^ n) :
    arg.extractLsb' n m = 0#m := by
  apply BitVec.eq_of_toNat_eq
  rw [BitVec.extractLsb'_toNat, Nat.shiftRight_eq_div_pow, Nat.div_eq_of_lt h]
  simp

/-- An opcode builds a command from every legal CTX and ARG. -/
theorem Opcode.exists_build {nConn : Nat} {o : Opcode} {ctx arg : BitVec 8} (h : o.FieldsLegal nConn ctx arg) :
    ∃ i, o.build ctx arg = .ok i := by
  have arg_zero (h : arg.toNat < 1) : arg = 0#8 := BitVec.eq_of_toNat_eq (Nat.lt_one_iff.mp h)
  obtain ⟨hfree, -, hbits, hregister⟩ := h
  cases o with
  | csum | tcsum | ethEnc | ethDec | ethIsBcast | ethIsMcast | ipEnc | ipDec | ipIsFrag | ipIsFirst | tcpEnc | tcpDec
  | udpEnc | udpDec | icmpEnc | icmpDec | icmpIsReq | icmpIsRep | icmpReply =>
    exact ⟨_, contextFree_eq_ok_iff.mpr ⟨hfree (by decide), noArg_eq_ok_iff.mpr ⟨arg_zero hbits, rfl⟩⟩⟩
  | connCreate | connConnect | connListen | connSend | connRecv | connClose =>
    exact ⟨_, noArg_eq_ok_iff.mpr ⟨arg_zero hbits, rfl⟩⟩
  | tcpHasFlag =>
    have hfield : arg.extractLsb' 6 2 = 0#2 := extractLsb'_eq_zero_of_lt hbits
    exact ⟨_, contextFree_eq_ok_iff.mpr ⟨hfree (by decide), ite_argBits_eq_ok_iff.mpr ⟨hfield, rfl⟩⟩⟩
  | connSetCb =>
    have hfield : arg.extractLsb' 2 6 = 0#6 := extractLsb'_eq_zero_of_lt hbits
    exact ⟨_, ite_argBits_eq_ok_iff.mpr ⟨hfield, rfl⟩⟩
  | connRdReg =>
    obtain ⟨r, rfl⟩ := Reg.exists_number (hregister rfl)
    exact ⟨_, Instr.build_fields (.connRdReg ctx r)⟩
  | connRdBuf =>
    have hfield : arg.extractLsb' 1 7 = 0#7 := extractLsb'_eq_zero_of_lt hbits
    exact ⟨_, ite_argBits_eq_ok_iff.mpr ⟨hfield, rfl⟩⟩

/-- Settles O3: by its fields, a word is legal exactly when its opcode builds a command and the block has the context
that command addresses. -/
theorem legalWordsAreCommands : Obligations.LegalWordsAreCommands := by
  intro nConn w
  rw [not_illegalWord_iff]
  constructor
  · rintro ⟨i, hdecode, hwf⟩
    obtain ⟨o, hop, hrsv, hbuild⟩ := decode_ok_cases hdecode
    obtain ⟨rfl, hctx, harg⟩ := Opcode.fields_of_build hbuild
    refine ⟨hrsv, i.opcode, hop, ?_⟩
    rw [← hctx, ← harg]
    exact i.fieldsLegal_iff.mpr hwf
  · rintro ⟨hrsv, o, hop, hlegal⟩
    obtain ⟨i, hbuild⟩ := Opcode.exists_build hlegal
    obtain ⟨rfl, hctx, harg⟩ := Opcode.fields_of_build hbuild
    rw [← hctx, ← harg] at hlegal
    have hencode : encode i = w := by rw [encode, hctx, harg, hop, commandWord_fields hrsv]
    exact ⟨i, decode_eq_ok_iff.mpr hencode, i.fieldsLegal_iff.mp hlegal⟩

end Sys2Proof

namespace Sys2Proof.Machine

/-! ## Illegal words -/

/-- A command on a context the block does not have is Illegal, whatever its operand record (R85(d)). -/
theorem exec_of_not_wellFormed {i : Instr} {s : State} (h : i.wellFormed s.nConn ≠ true) :
    exec i s = s.raise .illegal := by
  cases hk : i.context? with
  | none => exact absurd (by simp only [Instr.wellFormed, hk]) h
  | some k =>
    have hle : s.nConn ≤ k.toNat := by
      simpa only [Instr.wellFormed, hk, ne_eq, decide_eq_true_eq, not_lt] using h
    obtain ⟨run, hexec⟩ := exec_onContext hk
    exact (hexec s).trans (State.onContext_illegal _ _ (State.conn?_eq_none hle))

/-- An illegal word is answered Illegal, by the decoder or at the lookup of its context (log entry 11). -/
theorem perform_of_illegalWord {s : State} {w : Word} (h : IllegalWord s.nConn w) :
    s.perform w = .next (s.respond (.failure .illegal)) := by
  cases hdecode : decode w with
  | error e => exact perform_of_decode_error hdecode s
  | ok i =>
    have hwf : i.wellFormed s.nConn ≠ true := fun hwf =>
      (legalWordsAreCommands s.nConn w).mp ⟨i, hdecode, hwf⟩ h
    exact (perform_of_decode_ok hdecode s).trans (exec_of_not_wellFormed hwf)

/-- Settles O4: the step accepts the command and performs its word, which adds the one response. -/
theorem illegalWordsAnswerIllegal : Obligations.IllegalWordsAnswerIllegal := by
  intro s c rest hpending hillegal
  have hstep : step s = .next ((s.accept c rest).respond (.failure .illegal)) :=
    (step_of_pending_cons hpending).trans (perform_of_illegalWord (s := s.accept c rest) hillegal)
  exact ⟨_, hstep, rfl, rfl, rfl, rfl, rfl⟩

/-! ## The operand record of the command's own format -/

/-- Records that agree in a format have the same byte sequences in it, so that the length check answers the same. -/
theorem OperandRecord.Agree.byteFields_eq {f : Format} {a b : OperandRecord} (h : OperandRecord.Agree f a b) :
    a.byteFields f = b.byteFields f := by
  cases f with
  | none | ip | create => rfl
  | bytes => exact congrArg (fun x : FBytes => [x.data]) h
  | tcsum => exact congrArg (fun x : FTcsum => [x.header, x.payload]) h
  | eth => exact congrArg (fun x : FEth => [x.payload]) h
  | tcp => exact congrArg (fun x : FTcp => [x.options]) h
  | udp => exact congrArg (fun x : FUdp => [x.payload]) h
  | icmp => exact congrArg (fun x : FIcmp => [x.payload]) h

theorem OperandRecord.Agree.oversized_eq {f : Format} {a b : OperandRecord} (h : OperandRecord.Agree f a b)
    (p : Params) : oversized p f a = oversized p f b := by
  rw [oversized, oversized, h.byteFields_eq]

/-- A context-free command answers the same with another record that agrees in its format, where its function gives the
same on both. -/
theorem State.stateless_of_agree {s t : State} {op' : OperandRecord} {f : Format}
    {run : OperandRecord → Except ErrorKind Result} (hagree : OperandRecord.Agree f s.op op')
    (hrun : run s.op = run op') (h : s.stateless f run = .next t) :
    State.stateless { s with op := op' } f run = .next { t with op := op' } := by
  revert h
  simp only [State.stateless, ← hagree.oversized_eq, ← hrun]
  split
  · rintro ⟨⟩
    rfl
  · split <;> rintro ⟨⟩ <;> rfl

/-- A CONN.* command answers the same with another record that agrees in its format, where its function of the context
is the same for both. -/
theorem State.onContext_of_agree {s t : State} {op' : OperandRecord} {k : BitVec 8} {f : Format}
    {run run' : Conn → Except ErrorKind Done} (hagree : OperandRecord.Agree f s.op op') (hrun : run = run')
    (h : s.onContext k f run = .next t) :
    State.onContext { s with op := op' } k f run' = .next { t with op := op' } := by
  subst hrun
  have hconn : State.conn? { s with op := op' } k = s.conn? k := rfl
  revert h
  simp only [State.onContext, hconn, ← hagree.oversized_eq]
  split
  · rintro ⟨⟩
    rfl
  · split
    · rintro ⟨⟩
      rfl
    · split <;> rintro ⟨⟩ <;> rfl

/-- Settles O19, by the format of each command: its function reads that format's record alone. -/
theorem otherFormatsAreNotRead : Obligations.OtherFormatsAreNotRead := by
  intro i s t op' hagree hexec
  cases i with
  | csum | ethDec | ipDec | tcpDec | udpDec | icmpDec =>
    have hown : s.op.bytes = op'.bytes := hagree
    simp only [exec, execCsum, execEthDec, execIpDec, execTcpDec, execUdpDec, execIcmpDec] at hexec ⊢
    exact State.stateless_of_agree hagree (by simp only [hown]) hexec
  | tcsum =>
    have hown : s.op.tcsum = op'.tcsum := hagree
    simp only [exec, execTcsum] at hexec ⊢
    exact State.stateless_of_agree hagree (by simp only [hown]) hexec
  | ethEnc | ethIsBcast | ethIsMcast =>
    have hown : s.op.eth = op'.eth := hagree
    simp only [exec, execEthEnc, execEthIsBcast, execEthIsMcast] at hexec ⊢
    exact State.stateless_of_agree hagree (by simp only [hown]) hexec
  | ipEnc | ipIsFrag | ipIsFirst =>
    have hown : s.op.ip = op'.ip := hagree
    simp only [exec, execIpEnc, execIpIsFrag, execIpIsFirst] at hexec ⊢
    exact State.stateless_of_agree hagree (by simp only [hown]) hexec
  | tcpEnc | tcpHasFlag m =>
    have hown : s.op.tcp = op'.tcp := hagree
    simp only [exec, execTcpEnc, execTcpHasFlag] at hexec ⊢
    exact State.stateless_of_agree hagree (by simp only [hown]) hexec
  | udpEnc =>
    have hown : s.op.udp = op'.udp := hagree
    simp only [exec, execUdpEnc] at hexec ⊢
    exact State.stateless_of_agree hagree (by simp only [hown]) hexec
  | icmpEnc | icmpIsReq | icmpIsRep | icmpReply =>
    have hown : s.op.icmp = op'.icmp := hagree
    simp only [exec, execIcmpEnc, execIcmpIsReq, execIcmpIsRep, execIcmpReply] at hexec ⊢
    exact State.stateless_of_agree hagree (by simp only [hown]) hexec
  | connCreate k =>
    have hown : s.op.create = op'.create := hagree
    simp only [exec, execConnCreate] at hexec ⊢
    exact State.onContext_of_agree hagree (by simp only [hown]) hexec
  | connSend k | connRecv k =>
    have hown : s.op.bytes = op'.bytes := hagree
    simp only [exec, execConnSend, execConnRecv] at hexec ⊢
    exact State.onContext_of_agree hagree (by simp only [hown]) hexec
  | connConnect k | connListen k | connClose k | connSetCb k e | connRdReg k r | connRdBuf k b =>
    simp only [exec, execConnConnect, execConnListen, execConnClose, execConnSetCb, execConnRdReg, execConnRdBuf]
      at hexec ⊢
    exact State.onContext_of_agree hagree rfl hexec

/-! ## Words and codes of the tables -/

/-- Settles O5: each word is the word of its command. -/
theorem specWordsDecode : Obligations.SpecWordsDecode := by
  refine ⟨?_, ?_, ?_, ?_, ?_, ?_, ?_, ?_, ?_, ?_⟩ <;> exact decode_eq_ok_iff.mpr rfl

/-- Settles O9, by the tables of the codes; the register numbers are those `Reg.exists_number` goes by. -/
theorem codesOfStatusStateAndRegister : Obligations.CodesOfStatusStateAndRegister :=
  ⟨rfl, rfl, rfl, rfl, rfl, rfl, numbers_of_registers⟩

end Sys2Proof.Machine
end

section
/-! PROOFS. The checksum family (40_checksum.md): what determines `ocsum`, how it depends on the words, the receiver
check, and what CSUM and TCSUM return. -/

namespace Sys2Proof.Machine

/-! ## What determines the checksum -/

/-- The checksum completes the word sum to a multiple of 0xFFFF, and is 0xFFFF only for the sum 0; between 0 and 0xFFFF
that leaves one value. -/
theorem ocsum_eq_iff {B : Bytes} {v : BitVec 16} :
    ocsum B = v ↔ (wordSum B + v.toNat) % 0xFFFF = 0 ∧ (v.toNat = 0xFFFF ↔ wordSum B = 0) := by
  have hlt := foldCarry_lt _ _ (Nat.le_refl (wordSum B))
  have hmod := foldCarry_mod (wordSum B) (wordSum B)
  have hzero := foldCarry_eq_zero_iff (wordSum B) (wordSum B)
  have hv := v.isLt
  rw [← BitVec.toNat_inj, ocsum_toNat]
  omega

theorem ocsum_spec (B : Bytes) :
    (wordSum B + (ocsum B).toNat) % 0xFFFF = 0 ∧ ((ocsum B).toNat = 0xFFFF ↔ wordSum B = 0) :=
  ocsum_eq_iff.mp rfl

theorem ocsum_congr {A B : Bytes} (h : wordSum A = wordSum B) : ocsum A = ocsum B := by
  rw [ocsum, ocsum, h]

/-- The word sum by positions: a byte past the end reads 0, as the low half of an odd last byte does (R121). -/
theorem wordSum_eq_sum : ∀ B : Bytes,
    wordSum B = ∑ j ∈ Finset.range ((B.length + 1) / 2),
      ((byteAt B (2 * j)).toNat * 2 ^ 8 + (byteAt B (2 * j + 1)).toNat)
  | [] => rfl
  | [b] => by simp [wordSum, byteAt]
  | a :: b :: rest => by
    have hcount : ((a :: b :: rest).length + 1) / 2 = (rest.length + 1) / 2 + 1 := by
      simp only [List.length_cons]
      omega
    rw [hcount, Finset.sum_range_succ', wordSum, wordSum_eq_sum rest, Nat.add_comm]
    rfl

/-- Settles O26: of the numbers of 1 to 0xFFFF, one is the sum modulo 0xFFFF. -/
theorem ocsumIsEndAroundSum : Obligations.OcsumIsEndAroundSum := by
  intro B S
  have hS : wordSum B = S := wordSum_eq_sum B
  obtain ⟨hmod, hones⟩ := ocsum_spec B
  have hlt := (ocsum B).isLt
  rw [hS] at hmod hones
  split <;> omega

/-! ## The checksum and the words -/

/-- The word sum of words in front of any rest: the sum of their values. -/
theorem wordSum_flatMap_append (ws : List (Byte × Byte)) (rest : Bytes) :
    wordSum (ws.flatMap (fun w => [w.1, w.2]) ++ rest) =
      (ws.map fun w => w.1.toNat * 2 ^ 8 + w.2.toNat).sum + wordSum rest := by
  induction ws with
  | nil => simp
  | cons w ws ih =>
    simp only [List.flatMap_cons, List.cons_append, List.nil_append, wordSum, ih, List.map_cons, List.sum_cons]
    omega

/-- Settles O27: a permutation keeps the sum of the words. -/
theorem ocsumWordOrder : Obligations.OcsumWordOrder := by
  intro ws vs rest hperm
  apply ocsum_congr
  rw [wordSum_flatMap_append, wordSum_flatMap_append, (hperm.map _).sum_eq]

theorem wordSum_eq_zero_iff : ∀ B : Bytes, wordSum B = 0 ↔ ∀ b ∈ B, b = 0#8
  | [] => by simp [wordSum]
  | [b] => by
    rw [wordSum, List.forall_mem_singleton, ← BitVec.toNat_inj, BitVec.toNat_zero]
    omega
  | a :: b :: rest => by
    rw [wordSum, Nat.add_eq_zero_iff, wordSum_eq_zero_iff rest, List.forall_mem_cons, List.forall_mem_cons, ← and_assoc,
      ← BitVec.toNat_inj, ← BitVec.toNat_inj, BitVec.toNat_zero]
    exact and_congr_left' (by omega)

/-- Settles O29: the checksum is 0xFFFF only for the word sum 0. -/
theorem ocsumAllOnesOnlyForZeros : Obligations.OcsumAllOnesOnlyForZeros := by
  intro B
  rw [← wordSum_eq_zero_iff, ← (ocsum_spec B).2, ← BitVec.toNat_inj]
  rfl

/-- Swapping the bytes of every word multiplies the sum by 2^8, modulo 0xFFFF. -/
theorem wordSum_swap_mod (ws : List (Byte × Byte)) :
    wordSum (ws.flatMap fun w => [w.2, w.1]) % 0xFFFF = wordSum (ws.flatMap fun w => [w.1, w.2]) * 2 ^ 8 % 0xFFFF := by
  induction ws with
  | nil => rfl
  | cons w ws ih =>
    simp only [List.flatMap_cons, List.cons_append, List.nil_append, wordSum]
    omega

theorem wordSum_swap_eq_zero_iff (ws : List (Byte × Byte)) :
    wordSum (ws.flatMap fun w => [w.2, w.1]) = 0 ↔ wordSum (ws.flatMap fun w => [w.1, w.2]) = 0 := by
  simp [wordSum_eq_zero_iff, or_comm]

/-- The two bytes of a 16-bit value, exchanged. -/
theorem toNat_swap (v : BitVec 16) :
    (v.extractLsb' 0 8 ++ v.extractLsb' 8 8).toNat = v.toNat % 2 ^ 8 * 2 ^ 8 + v.toNat / 2 ^ 8 := by
  have := v.isLt
  rw [toNat_append_eq, BitVec.extractLsb'_toNat, BitVec.extractLsb'_toNat, Nat.shiftRight_eq_div_pow,
    Nat.shiftRight_eq_div_pow]
  omega

/-- Settles O30: swapping bytes multiplies by 2^8 modulo 0xFFFF, the word sum and the checksum alike. -/
theorem ocsumByteSwap : Obligations.OcsumByteSwap := by
  intro ws
  have hswap := wordSum_swap_mod ws
  have hzero := wordSum_swap_eq_zero_iff ws
  obtain ⟨hmod, hones⟩ := ocsum_spec (ws.flatMap fun w => [w.1, w.2])
  have hlt := (ocsum (ws.flatMap fun w => [w.1, w.2])).isLt
  rw [ocsum_eq_iff, toNat_swap]
  constructor
  · omega
  · rw [hzero, ← hones]
    omega

/-- The receiver check on word sums: adding its checksum to a sum makes it a multiple of 0xFFFF other than 0. -/
theorem ocsum_eq_zero_of_wordSum {A B : Bytes} (h : wordSum B = wordSum A + (ocsum A).toNat) : ocsum B = 0x0000#16 := by
  obtain ⟨hmod, hones⟩ := ocsum_spec A
  rw [ocsum_eq_iff, h, BitVec.toNat_zero]
  omega

/-- Settles O28: a field at an even offset adds its value to the word sum. -/
theorem receiverCheckFoldsToZero : Obligations.ReceiverCheckFoldsToZero := fun _ _ heven hlen =>
  ocsum_eq_zero_of_wordSum (wordSum_patch16 heven hlen _)

/-! ## The results of context-free commands -/

theorem State.respond_inj {s : State} {r r' : Response} : s.respond r = s.respond r' ↔ r = r' := by
  refine ⟨fun h => ?_, congrArg s.respond⟩
  simpa using congrArg State.responses h

/-- A context-free command returns a result exactly when its operands are within the limit and its function gives
that result. -/
theorem State.returns_iff_of_stateless {s : State} {i : Instr} {f : Format}
    {run : OperandRecord → Except ErrorKind Result} {r : Result} (hexec : exec i s = s.stateless f run) :
    s.Returns i r ↔ (∀ B ∈ s.op.byteFields f, B.length ≤ s.cfg.maxOperandBytes) ∧ run s.op = .ok r := by
  constructor
  · intro h
    have h : s.stateless f run = .next (s.respond (.success (some r) [])) := hexec.symm.trans h
    rcases s.stateless_next f run with ⟨e, he⟩ | ⟨r', hfits, hrun, hr'⟩
    · cases State.respond_inj.mp (Host.Outcome.next.inj (he.symm.trans h))
    · cases State.respond_inj.mp (Host.Outcome.next.inj (hr'.symm.trans h))
      exact ⟨hfits, hrun⟩
  · rintro ⟨hfits, hrun⟩
    exact hexec.trans (State.stateless_ok hfits hrun)

/-- A context-free command with operands within the limit fails with the error its function gives. -/
theorem State.fails_of_stateless {s : State} {i : Instr} {f : Format} {run : OperandRecord → Except ErrorKind Result}
    {e : ErrorKind} (hexec : exec i s = s.stateless f run)
    (hfits : ∀ B ∈ s.op.byteFields f, B.length ≤ s.cfg.maxOperandBytes) (hrun : run s.op = .error e) : s.Fails i e :=
  hexec.trans (State.stateless_error hfits hrun)

/-! ## CSUM -/

theorem exec_csum (s : State) :
    exec .csum s = s.stateless .bytes fun op => .ok (.u16 (ocsum op.bytes.data)) := rfl

theorem returns_csum {s : State} (h : s.op.bytes.data.length ≤ s.cfg.maxOperandBytes) :
    s.Returns .csum (.u16 (ocsum s.op.bytes.data)) :=
  (State.returns_iff_of_stateless (exec_csum s)).mpr ⟨List.forall_mem_singleton.mpr h, rfl⟩

/-- The checksum of one byte: it is the high byte of the only word. -/
theorem ocsum_singleton (b : Byte) : ocsum [b] = BitVec.ofNat 16 (0xFFFF - b.toNat * 2 ^ 8) := by
  have := b.isLt
  rw [ocsum_eq_iff, wordSum, BitVec.toNat_ofNat]
  omega

/-- Settles O25: the corner values are those of the checksum. -/
theorem csumResult : Obligations.CsumResult := by
  intro s hlen
  have hreturns := returns_csum hlen
  refine ⟨hreturns, fun hzeros => ?_, fun b hb => ?_⟩
  · rw [← (ocsumAllOnesOnlyForZeros _).mpr hzeros]
    exact hreturns
  · rw [← ocsum_singleton, ← hb]
    exact hreturns

/-! ## TCSUM -/

theorem exec_tcsum (s : State) :
    exec .tcsum s = s.stateless .tcsum fun op => (transportChecksum op.tcsum).map .u16 := rfl

/-- What TCSUM sums (R124). -/
def transportCovered (x : FTcsum) : Bytes := pseudoHeader x ++ x.header ++ x.payload

theorem transportChecksum_of_le {x : FTcsum} (h : x.header.length + x.payload.length ≤ 65535) :
    transportChecksum x = .ok (ocsum (transportCovered x)) :=
  if_neg (Nat.not_lt.mpr h)

theorem transportChecksum_of_lt {x : FTcsum} (h : 65535 < x.header.length + x.payload.length) :
    transportChecksum x = .error .tooLarge :=
  if_pos h

theorem tcsum_fits_iff {s : State} :
    (∀ B ∈ s.op.byteFields .tcsum, B.length ≤ s.cfg.maxOperandBytes) ↔
      s.op.tcsum.header.length ≤ s.cfg.maxOperandBytes ∧ s.op.tcsum.payload.length ≤ s.cfg.maxOperandBytes := by
  simp [OperandRecord.byteFields]

/-- TCSUM returns a value exactly when the operands are within both limits and the value is the checksum. -/
theorem returns_tcsum_iff {s : State} {c : BitVec 16} :
    s.Returns .tcsum (.u16 c) ↔
      (s.op.tcsum.header.length ≤ s.cfg.maxOperandBytes ∧ s.op.tcsum.payload.length ≤ s.cfg.maxOperandBytes) ∧
        s.op.tcsum.header.length + s.op.tcsum.payload.length ≤ 65535 ∧ ocsum (transportCovered s.op.tcsum) = c := by
  rw [State.returns_iff_of_stateless (exec_tcsum s), tcsum_fits_iff]
  refine and_congr_right fun _ => ?_
  rcases Nat.lt_or_ge 65535 (s.op.tcsum.header.length + s.op.tcsum.payload.length) with h | h
  · simp [transportChecksum_of_lt h, Except.map, Nat.not_le.mpr h]
  · simp [transportChecksum_of_le h, Except.map, h]

/-! ### The pseudo-header's fields (R123) -/

@[simp] theorem pseudoHeader_length (x : FTcsum) : (pseudoHeader x).length = 12 := rfl

theorem pseudoHeader_srcAddr (x : FTcsum) : be32 (pseudoHeader x) 0 = x.srcAddr := by
  simp only [pseudoHeader, List.append_assoc]
  exact be32_put32 ..

theorem pseudoHeader_dstAddr (x : FTcsum) : be32 (pseudoHeader x) 4 = x.dstAddr := by
  simp only [pseudoHeader, List.append_assoc]
  exact (be32_append_right (put32_length _) _ 0).trans (be32_put32 ..)

theorem pseudoHeader_zero (x : FTcsum) : byteAt (pseudoHeader x) 8 = 0#8 := rfl

theorem pseudoHeader_proto (x : FTcsum) : byteAt (pseudoHeader x) 9 = x.proto := rfl

/-- The length field holds the whole length, where it is at most 65535. -/
theorem pseudoHeader_len {x : FTcsum} (h : x.header.length + x.payload.length ≤ 65535) :
    (be16 (pseudoHeader x) 10).toNat = x.header.length + x.payload.length := by
  have hfield : be16 (pseudoHeader x) 10 = BitVec.ofNat 16 (x.header.length + x.payload.length) := be16_put16 _ []
  rw [hfield, BitVec.toNat_ofNat, Nat.mod_eq_of_lt (by omega)]

/-- Settles O31, with the pseudo-header of the model as the 12 bytes. -/
theorem tcsumResult : Obligations.TcsumResult := by
  intro s hheader hpayload x L
  constructor
  · intro hL
    exact ⟨pseudoHeader x, pseudoHeader_length x, pseudoHeader_srcAddr x, pseudoHeader_dstAddr x, pseudoHeader_zero x,
      pseudoHeader_proto x, pseudoHeader_len hL, returns_tcsum_iff.mpr ⟨⟨hheader, hpayload⟩, hL, rfl⟩⟩
  · intro hL
    exact State.fails_of_stateless (exec_tcsum s) (tcsum_fits_iff.mpr ⟨hheader, hpayload⟩)
      (congrArg (Except.map Result.u16) (transportChecksum_of_lt hL))

/-! ### The receiver check over the pseudo-header -/

/-- A field of the header is a field of what TCSUM sums, 12 bytes further; the pseudo-header holds no byte of it. -/
theorem transportCovered_patch16 {x : FTcsum} {j : Nat} (h : j + 2 ≤ x.header.length) (v : BitVec 16) :
    transportCovered { x with header := patch16 x.header j v } = patch16 (transportCovered x) (12 + j) v := by
  have hpseudo : pseudoHeader { x with header := patch16 x.header j v } = pseudoHeader x := by
    simp only [pseudoHeader, patch16_length h]
  rw [transportCovered, transportCovered, hpseudo, List.append_assoc, List.append_assoc,
    patch16_append_right (pseudoHeader_length x), patch16_append_left h]

/-- Settles O32: the header with the result in its field is the receiver check of R126(b) on what TCSUM sums. -/
theorem tcsumVerifiesWrittenChecksum : Obligations.TcsumVerifiesWrittenChecksum := by
  intro s u j c heven hj hfield hreturns hcfg hop
  obtain ⟨⟨hheader, hpayload⟩, hlen, rfl⟩ := returns_tcsum_iff.mp hreturns
  have hzeroed : patch16 (transportCovered s.op.tcsum) (12 + j) 0#16 = transportCovered s.op.tcsum := by
    rw [← transportCovered_patch16 hj, ← hfield, patch16_self hj]
  have hcheck : ocsum (transportCovered u.op.tcsum) = 0x0000#16 := by
    have h := receiverCheckFoldsToZero (transportCovered s.op.tcsum) (12 + j) (by omega)
      (by simp only [transportCovered, List.length_append, pseudoHeader_length]; omega)
    rwa [hzeroed, ← transportCovered_patch16 hj, ← hop] at h
  rw [returns_tcsum_iff, hcfg, hcheck, hop, patch16_length hj]
  exact ⟨⟨hheader, hpayload⟩, hlen, rfl⟩

end Sys2Proof.Machine
end

section
/-! PROOFS. The Ethernet family (41_ethernet.md): the frame image and the frame record are inverse, and what each ETH.*
command returns. -/

namespace Sys2Proof.Machine

/-! ## Fields written back where they were read -/

/-- A byte and what follows it. -/
theorem byteAt_cons_drop {B : Bytes} {i : Nat} (h : i < B.length) : byteAt B i :: B.drop (i + 1) = B.drop i := by
  rw [List.drop_eq_getElem_cons h, byteAt, List.getD_eq_getElem]

/-- A field written back in front of what follows it. -/
theorem put16_be16_append_drop {B : Bytes} {i : Nat} (h : i + 2 ≤ B.length) :
    put16 (be16 B i) ++ B.drop (i + 2) = B.drop i := by
  rw [put16_be16, List.cons_append, List.cons_append, List.nil_append, byteAt_cons_drop (by omega),
    byteAt_cons_drop (by omega)]

theorem put32_be32_append_drop {B : Bytes} {i : Nat} (h : i + 4 ≤ B.length) :
    put32 (be32 B i) ++ B.drop (i + 4) = B.drop i := by
  have hhalves : put32 (be32 B i) = put16 (be16 B i) ++ put16 (be16 B (i + 2)) := by
    rw [put32_be32, put16_be16, put16_be16]
    rfl
  rw [hhalves, List.append_assoc, put16_be16_append_drop (i := i + 2) h, put16_be16_append_drop (by omega)]

theorem put48_be48_append_drop {B : Bytes} {i : Nat} (h : i + 6 ≤ B.length) :
    put48 (be48 B i) ++ B.drop (i + 6) = B.drop i := by
  have hparts : put48 (be48 B i) = put16 (be16 B i) ++ put32 (be32 B (i + 2)) := by
    rw [put48_be48, put16_be16, put32_be32]
    rfl
  rw [hparts, List.append_assoc, put32_be32_append_drop (i := i + 2) h, put16_be16_append_drop (by omega)]

/-! ## The frame image and the frame record -/

/-- The byte image of a frame record (R141), whatever its payload's length. -/
def ethImage (x : FEth) : Bytes := put48 x.dst ++ put48 x.src ++ put16 x.etype ++ x.payload

/-- The frame record of a byte image (R143), whatever its length. -/
def ethRecord (B : Bytes) : FEth := { dst := be48 B 0, src := be48 B 6, etype := be16 B 12, payload := B.drop 14 }

theorem ethEncode_of_le {x : FEth} (h : x.payload.length ≤ 1500) : ethEncode x = .ok (ethImage x) :=
  if_neg (Nat.not_lt.mpr h)

theorem ethEncode_of_lt {x : FEth} (h : 1500 < x.payload.length) : ethEncode x = .error .tooLarge :=
  if_pos h

theorem ethDecode_of_le {B : Bytes} (h : 14 ≤ B.length) : ethDecode B = .ok (ethRecord B) := by
  rw [ethDecode, if_neg (Nat.not_lt.mpr h), slice_to_end, ethRecord]

theorem ethDecode_of_lt {B : Bytes} (h : B.length < 14) : ethDecode B = .error .tooShort :=
  if_pos h

@[simp] theorem ethImage_length (x : FEth) : (ethImage x).length = 14 + x.payload.length := by
  simp only [ethImage, List.length_append, put48_length, put16_length]

/-- Each field reads back from where the image holds it. -/
theorem ethRecord_ethImage (x : FEth) : ethRecord (ethImage x) = x := by
  have hdst : be48 (ethImage x) 0 = x.dst := by
    simp only [ethImage, List.append_assoc]
    exact be48_put48 ..
  have hsrc : be48 (ethImage x) 6 = x.src := by
    simp only [ethImage, List.append_assoc]
    exact (be48_append_right (put48_length _) _ 0).trans (be48_put48 ..)
  have hetype : be16 (ethImage x) 12 = x.etype := by
    rw [ethImage, List.append_assoc]
    exact (be16_append_right (A := put48 x.dst ++ put48 x.src) rfl _ 0).trans (be16_put16 ..)
  have hpayload : (ethImage x).drop 14 = x.payload := rfl
  rw [ethRecord, hdst, hsrc, hetype, hpayload]

/-- The fields cover the image: bytes 0 to 13 and every byte after them. -/
theorem ethImage_ethRecord {B : Bytes} (h : 14 ≤ B.length) : ethImage (ethRecord B) = B := by
  rw [ethImage, ethRecord, List.append_assoc, List.append_assoc, put16_be16_append_drop (i := 12) h,
    put48_be48_append_drop (i := 6) (by omega), put48_be48_append_drop (i := 0) (by omega), List.drop_zero]

/-! ## Failing with TooLarge -/

/-- A context-free command fails with TooLarge where its own check says so: an operand past the common limit is
TooLarge anyway. -/
theorem State.fails_tooLarge_of_stateless {s : State} {i : Instr} {f : Format}
    {run : OperandRecord → Except ErrorKind Result} (hexec : exec i s = s.stateless f run)
    (hrun : run s.op = .error .tooLarge) : s.Fails i .tooLarge := by
  by_cases hfits : ∀ B ∈ s.op.byteFields f, B.length ≤ s.cfg.maxOperandBytes
  · exact State.fails_of_stateless hexec hfits hrun
  · push Not at hfits
    obtain ⟨B, hB, hlong⟩ := hfits
    exact hexec.trans (State.stateless_oversized run hB hlong)

/-! ## ETH.ENC -/

theorem exec_ethEnc (s : State) : exec .ethEnc s = s.stateless .eth fun op => (ethEncode op.eth).map .bytes := rfl

/-- ETH.ENC returns the image exactly where the payload has at most 1500 bytes, which is within every common limit. -/
theorem returns_ethEnc_iff {s : State} {B : Bytes} :
    s.Returns .ethEnc (.bytes B) ↔ s.op.eth.payload.length ≤ 1500 ∧ ethImage s.op.eth = B := by
  have hlimit := minOperandBytes_le s.cfg
  rw [State.returns_iff_of_stateless (exec_ethEnc s)]
  rcases Nat.lt_or_ge 1500 s.op.eth.payload.length with h | h
  · simp [ethEncode_of_lt h, Except.map, Nat.not_le.mpr h]
  · have hfits : s.op.eth.payload.length ≤ s.cfg.maxOperandBytes := by omega
    simp [ethEncode_of_le h, Except.map, OperandRecord.byteFields, h, hfits]

/-- Settles O33: the image's record is the one encoded. -/
theorem ethEncImage : Obligations.EthEncImage := by
  intro s x
  constructor
  · intro h
    obtain ⟨hdst, hsrc, hetype, hpayload⟩ := FEth.mk.inj (ethRecord_ethImage x)
    exact ⟨ethImage x, returns_ethEnc_iff.mpr ⟨h, rfl⟩, ethImage_length x, hdst, hsrc, hetype, hpayload⟩
  · intro h
    exact State.fails_tooLarge_of_stateless (exec_ethEnc s) (congrArg (Except.map Result.bytes) (ethEncode_of_lt h))

/-! ## ETH.DEC -/

theorem exec_ethDec (s : State) :
    exec .ethDec s = s.stateless .bytes fun op => (ethDecode op.bytes.data).map .eth := rfl

/-- ETH.DEC returns the record exactly where the operand has at least 14 bytes and is within the common limit. -/
theorem returns_ethDec_iff {s : State} {x : FEth} :
    s.Returns .ethDec (.eth x) ↔
      s.op.bytes.data.length ≤ s.cfg.maxOperandBytes ∧ 14 ≤ s.op.bytes.data.length ∧
        ethRecord s.op.bytes.data = x := by
  rw [State.returns_iff_of_stateless (exec_ethDec s)]
  refine and_congr List.forall_mem_singleton ?_
  rcases Nat.lt_or_ge s.op.bytes.data.length 14 with h | h
  · simp [ethDecode_of_lt h, Except.map, Nat.not_le.mpr h]
  · simp [ethDecode_of_le h, Except.map, h]

/-- Settles O34, by the record of the image. -/
theorem ethDecRecord : Obligations.EthDecRecord := by
  intro s hlen B
  constructor
  · intro h
    exact returns_ethDec_iff.mpr ⟨hlen, h, rfl⟩
  · intro h
    exact State.fails_of_stateless (exec_ethDec s) (List.forall_mem_singleton.mpr hlen)
      (congrArg (Except.map Result.eth) (ethDecode_of_lt h))

/-- Settles O35: image and record are inverse, and each command's output is within the other's limits. -/
theorem ethRoundTrip : Obligations.EthRoundTrip := by
  constructor
  · intro s u B hreturns hop
    obtain ⟨hpayload, rfl⟩ := returns_ethEnc_iff.mp hreturns
    have hlimit := minOperandBytes_le u.cfg
    rw [returns_ethDec_iff, hop, ethImage_length]
    exact ⟨by omega, by omega, ethRecord_ethImage _⟩
  · intro s u x hlen hreturns hop
    obtain ⟨-, hheader, rfl⟩ := returns_ethDec_iff.mp hreturns
    have hpayload : (ethRecord s.op.bytes.data).payload.length ≤ 1500 := by
      rw [ethRecord, List.length_drop]
      omega
    rw [returns_ethEnc_iff, hop]
    exact ⟨hpayload, ethImage_ethRecord hheader⟩

/-! ## ETH.ISBCAST and ETH.ISMCAST -/

theorem exec_ethIsBcast (s : State) :
    exec .ethIsBcast s = s.stateless .eth fun op => .ok (.u1 (ethIsBroadcast op.eth)) := rfl

theorem exec_ethIsMcast (s : State) :
    exec .ethIsMcast s = s.stateless .eth fun op => .ok (.u1 (ethIsMulticast op.eth)) := rfl

theorem ethIsBroadcast_eq (x : FEth) : ethIsBroadcast x = if x.dst.toNat = 2 ^ 48 - 1 then 1 else 0 := by
  have hones : x.dst = 0xFFFFFFFFFFFF#48 ↔ x.dst.toNat = 2 ^ 48 - 1 := BitVec.toNat_inj.symm
  by_cases h : x.dst = 0xFFFFFFFFFFFF#48
  · rw [if_pos (hones.mp h), ethIsBroadcast, beq_iff_eq.mpr h]
    rfl
  · rw [if_neg (hones.not.mp h), ethIsBroadcast, beq_eq_false_iff_ne.mpr h]
    rfl

theorem ethIsMulticast_eq (x : FEth) : ethIsMulticast x = BitVec.ofNat 1 (x.dst.toNat / 2 ^ 40) := by
  apply BitVec.eq_of_toNat_eq
  rw [ethIsMulticast, BitVec.toNat_ofBool, BitVec.toNat_ofNat, BitVec.getLsbD, Nat.toNat_testBit]

/-- Settles O36: the predicates make no check of their own. -/
theorem ethPredicates : Obligations.EthPredicates := by
  intro s hlen
  have hfits : ∀ B ∈ s.op.byteFields .eth, B.length ≤ s.cfg.maxOperandBytes := List.forall_mem_singleton.mpr hlen
  rw [← ethIsBroadcast_eq, ← ethIsMulticast_eq]
  exact ⟨(State.returns_iff_of_stateless (exec_ethIsBcast s)).mpr ⟨hfits, rfl⟩,
    (State.returns_iff_of_stateless (exec_ethIsMcast s)).mpr ⟨hfits, rfl⟩⟩

end Sys2Proof.Machine
end

section
/-! PROOFS. The IPv4 family (42_ipv4.md): the header image with its checksum in place, the header record that reads back
from it, and what each IP.* command returns. -/

namespace Sys2Proof.Machine

open BitVec (extractLsb'_append_eq_left extractLsb'_append_eq_right)

/-! ## The header image and the header record -/

/-- The 20 header bytes of a record (R161), with `sum` in the checksum field. -/
def ipHeader (x : FIp) (sum : BitVec 16) : Bytes := patch16 (ipImage x) 10 sum

/-- The header record of a byte image (R163), whatever its length. -/
def ipHeaderRecord (B : Bytes) : FIp where
  version := (byteAt B 0).extractLsb' 4 4
  ihl := (byteAt B 0).extractLsb' 0 4
  tos := byteAt B 1
  totalLen := be16 B 2
  id := be16 B 4
  flags := (be16 B 6).extractLsb' 13 3
  fragOff := (be16 B 6).extractLsb' 0 13
  ttl := byteAt B 8
  proto := byteAt B 9
  checksum := be16 B 10
  src := be32 B 12
  dst := be32 B 16

theorem ipEncode_eq (x : FIp) : ipEncode x = ipHeader x (ipChecksum x) := rfl

theorem ipDecode_of_le {B : Bytes} (h : 20 ≤ B.length) : ipDecode B = .ok (ipHeaderRecord B) :=
  if_neg (Nat.not_lt.mpr h)

theorem ipDecode_of_lt {B : Bytes} (h : B.length < 20) : ipDecode B = .error .tooShort :=
  if_pos h

@[simp] theorem ipHeader_length (x : FIp) (sum : BitVec 16) : (ipHeader x sum).length = 20 := rfl

/-- The image that the checksum is computed over is the header with its checksum field zero. -/
theorem ipHeader_zero (x : FIp) : ipHeader x 0#16 = ipImage x := rfl

theorem patch16_ipHeader (x : FIp) (sum v : BitVec 16) : patch16 (ipHeader x sum) 10 v = ipHeader x v :=
  patch16_patch16 (by rw [ipImage_length]; omega) sum v

/-! ### The fields of the header, at their offsets -/

section Fields

variable (x : FIp) (sum : BitVec 16)

theorem ipHeader_version_ihl : byteAt (ipHeader x sum) 0 = 4#4 ++ x.ihl := rfl

theorem ipHeader_tos : byteAt (ipHeader x sum) 1 = x.tos := rfl

theorem ipHeader_totalLen : be16 (ipHeader x sum) 2 = x.totalLen := be16_put16 _ []

theorem ipHeader_id : be16 (ipHeader x sum) 4 = x.id := be16_put16 _ []

theorem ipHeader_flagsWord : be16 (ipHeader x sum) 6 = x.flags ++ x.fragOff := be16_put16 _ []

theorem ipHeader_ttl : byteAt (ipHeader x sum) 8 = x.ttl := rfl

theorem ipHeader_proto : byteAt (ipHeader x sum) 9 = x.proto := rfl

theorem ipHeader_checksum : be16 (ipHeader x sum) 10 = sum := be16_put16 _ []

theorem ipHeader_src : be32 (ipHeader x sum) 12 = x.src := be32_put32 _ []

theorem ipHeader_dst : be32 (ipHeader x sum) 16 = x.dst := be32_put32 _ []

/-- Each field reads back from where the header holds it; the version is 4 and the checksum the one put in. -/
theorem ipHeaderRecord_ipHeader : ipHeaderRecord (ipHeader x sum) = { x with version := 4, checksum := sum } := by
  have hversion : (4#4 ++ x.ihl).extractLsb' 4 4 = 4#4 := extractLsb'_append_eq_left
  have hihl : (4#4 ++ x.ihl).extractLsb' 0 4 = x.ihl := extractLsb'_append_eq_right
  have hflags : (x.flags ++ x.fragOff).extractLsb' 13 3 = x.flags := extractLsb'_append_eq_left
  have hfragOff : (x.flags ++ x.fragOff).extractLsb' 0 13 = x.fragOff := extractLsb'_append_eq_right
  rw [ipHeaderRecord, ipHeader_version_ihl, ipHeader_tos, ipHeader_totalLen, ipHeader_id, ipHeader_flagsWord,
    ipHeader_ttl, ipHeader_proto, ipHeader_checksum, ipHeader_src, ipHeader_dst, hversion, hihl, hflags, hfragOff]
  rfl

end Fields

/-! ## IP.ENC -/

theorem exec_ipEnc (s : State) : exec .ipEnc s = s.stateless .ip fun op => .ok (.bytes (ipEncode op.ip)) := rfl

/-- IP.ENC has no failing input: a header record holds no byte sequence, and every record has an image. -/
theorem returns_ipEnc_iff {s : State} {B : Bytes} : s.Returns .ipEnc (.bytes B) ↔ ipEncode s.op.ip = B := by
  rw [State.returns_iff_of_stateless (exec_ipEnc s)]
  simp [OperandRecord.byteFields]

/-- The checksum that IP.ENC puts into the header is the one of the header with that field zero (R161). -/
theorem ipChecksum_eq (x : FIp) : ipChecksum x = ocsum (patch16 (ipEncode x) 10 0#16) := by
  rw [ipEncode_eq, patch16_ipHeader, ipHeader_zero, ipChecksum]

/-- The receiver's check of a header that IP.ENC returned (R162). -/
theorem ocsum_ipEncode (x : FIp) : ocsum (ipEncode x) = 0x0000#16 := by
  have hcheck := receiverCheckFoldsToZero (ipEncode x) 10 rfl (by rw [ipEncode_eq, ipHeader_length]; omega)
  rwa [← ipChecksum_eq, ipEncode_eq, patch16_ipHeader] at hcheck

/-- Settles O37: IP.ENC's image is the header with the computed checksum, whose fields stand at their offsets. -/
theorem ipEncImage : Obligations.IpEncImage := by
  intro s x
  have hversion : (byteAt (ipEncode x) 0).toNat = 4 * 2 ^ 4 + x.ihl.toNat := toNat_append_eq 4#4 x.ihl
  have hflags : (be16 (ipEncode x) 6).toNat = x.flags.toNat * 2 ^ 13 + x.fragOff.toNat := by
    rw [ipEncode_eq, ipHeader_flagsWord, toNat_append_eq]
  have hchecksum : be16 (ipEncode x) 10 = ocsum (patch16 (ipEncode x) 10 0#16) := by
    rw [← ipChecksum_eq, ipEncode_eq, ipHeader_checksum]
  exact ⟨ipEncode x, returns_ipEnc_iff.mpr rfl, ipHeader_length x _, hversion, ipHeader_tos x _, ipHeader_totalLen x _,
    ipHeader_id x _, hflags, ipHeader_ttl x _, ipHeader_proto x _, hchecksum, ipHeader_src x _, ipHeader_dst x _,
    ocsum_ipEncode x⟩

/-! ## IP.DEC -/

theorem exec_ipDec (s : State) :
    exec .ipDec s = s.stateless .bytes fun op => (ipDecode op.bytes.data).map .ip := rfl

/-- IP.DEC returns the record exactly where the operand has at least 20 bytes and is within the common limit. -/
theorem returns_ipDec_iff {s : State} {x : FIp} :
    s.Returns .ipDec (.ip x) ↔
      s.op.bytes.data.length ≤ s.cfg.maxOperandBytes ∧ 20 ≤ s.op.bytes.data.length ∧
        ipHeaderRecord s.op.bytes.data = x := by
  rw [State.returns_iff_of_stateless (exec_ipDec s)]
  refine and_congr List.forall_mem_singleton ?_
  rcases Nat.lt_or_ge s.op.bytes.data.length 20 with h | h
  · simp [ipDecode_of_lt h, Except.map, Nat.not_le.mpr h]
  · simp [ipDecode_of_le h, Except.map, h]

/-- A field of a word, as a quotient cut to the field's width. -/
theorem extractLsb'_eq_ofNat_div {w : Nat} (v : BitVec w) (start len : Nat) :
    v.extractLsb' start len = BitVec.ofNat len (v.toNat / 2 ^ start) := by
  rw [BitVec.extractLsb', Nat.shiftRight_eq_div_pow]

/-- Settles O38, by the record of the image with its fields within bytes as quotients. -/
theorem ipDecRecord : Obligations.IpDecRecord := by
  intro s hlen B
  constructor
  · intro h
    refine returns_ipDec_iff.mpr ⟨hlen, h, ?_⟩
    simp only [ipHeaderRecord, extractLsb'_eq_ofNat_div, Nat.pow_zero, Nat.div_one]
    rfl
  · intro h
    exact State.fails_of_stateless (exec_ipDec s) (List.forall_mem_singleton.mpr hlen)
      (congrArg (Except.map Result.ip) (ipDecode_of_lt h))

/-- Settles O39: the header is 20 bytes, within every limit, and its record is the one encoded. -/
theorem ipRoundTrip : Obligations.IpRoundTrip := by
  intro s u B hreturns hop
  obtain rfl := returns_ipEnc_iff.mp hreturns
  have hlimit := minOperandBytes_le u.cfg
  rw [returns_ipDec_iff, hop, ipEncode_eq, ipHeader_length, ipHeaderRecord_ipHeader, ipHeader_checksum]
  exact ⟨by omega, Nat.le_refl 20, rfl⟩

/-! ## IP.ISFRAG and IP.ISFIRST -/

theorem exec_ipIsFrag (s : State) :
    exec .ipIsFrag s = s.stateless .ip fun op => .ok (.u1 (ipIsFragment op.ip)) := rfl

theorem exec_ipIsFirst (s : State) :
    exec .ipIsFirst s = s.stateless .ip fun op => .ok (.u1 (ipIsFirstFragment op.ip)) := rfl

/-- The u1 value of a test. -/
theorem ofBool_decide (p : Prop) [Decidable p] : BitVec.ofBool (decide p) = if p then 1 else 0 := by
  split <;> simp [*]

theorem fragOff_beq_zero (fragOff : BitVec 13) : (fragOff == 0#13) = decide (fragOff.toNat = 0) := by
  rw [beq_eq_decide]
  exact decide_eq_decide.mpr BitVec.toNat_inj.symm

theorem ipIsFirstFragment_eq (x : FIp) : ipIsFirstFragment x = if x.fragOff.toNat = 0 then 1 else 0 := by
  rw [ipIsFirstFragment, fragOff_beq_zero, ofBool_decide]

theorem ipIsFragment_eq (x : FIp) :
    ipIsFragment x = if x.flags.toNat % 2 = 1 ∨ x.fragOff.toNat ≠ 0 then 1 else 0 := by
  have hMF : x.flags.getLsbD 0 = decide (x.flags.toNat % 2 = 1) := Nat.testBit_zero _
  have hlater : (x.fragOff != 0#13) = decide (x.fragOff.toNat ≠ 0) := by
    rw [bne, fragOff_beq_zero, decide_not]
  rw [ipIsFragment, hMF, hlater, ← Bool.decide_or, ofBool_decide]

/-- Settles O40: the predicates read a record that holds no byte sequence, so nothing is too long. -/
theorem ipPredicates : Obligations.IpPredicates := by
  intro s
  rw [← ipIsFragment_eq, ← ipIsFirstFragment_eq]
  exact ⟨(State.returns_iff_of_stateless (exec_ipIsFrag s)).mpr ⟨nofun, rfl⟩,
    (State.returns_iff_of_stateless (exec_ipIsFirst s)).mpr ⟨nofun, rfl⟩⟩

end Sys2Proof.Machine
end

section
/-! PROOFS. The TCP header family (43_tcp_header.md): the header image with its padded options and its checksum in
place, the header record that reads back from it, and what each TCP.* command returns. -/

namespace Sys2Proof.Machine

/-! ## The padding of the options -/

/-- How many zeros bring options of `n` bytes to a multiple of 4 (R181). -/
def tcpPadding (n : Nat) : Nat := (4 - n % 4) % 4

theorem tcpPadding_lt (n : Nat) : tcpPadding n < 4 := Nat.mod_lt _ (by omega)

theorem add_tcpPadding_mod (n : Nat) : (n + tcpPadding n) % 4 = 0 := by
  rw [tcpPadding]
  omega

theorem tcpPadded_eq (options : Bytes) :
    tcpPadded options = options ++ List.replicate (tcpPadding options.length) 0#8 := rfl

@[simp] theorem tcpPadded_length (options : Bytes) :
    (tcpPadded options).length = options.length + tcpPadding options.length := by
  rw [tcpPadded_eq, List.length_append, List.length_replicate]

/-- Options that end on a multiple of 4 get no padding. -/
theorem tcpPadded_of_mod {options : Bytes} (h : options.length % 4 = 0) : tcpPadded options = options := by
  simp [tcpPadded_eq, tcpPadding, h]

/-! ## Reading past a field -/

section Past

variable (B : Bytes) (i : Nat)

@[simp] theorem byteAt_put8_append (v : BitVec 8) : byteAt (put8 v ++ B) (i + 1) = byteAt B i := rfl

@[simp] theorem byteAt_put16_append (v : BitVec 16) : byteAt (put16 v ++ B) (i + 2) = byteAt B i := rfl

@[simp] theorem byteAt_put32_append (v : BitVec 32) : byteAt (put32 v ++ B) (i + 4) = byteAt B i := rfl

@[simp] theorem be16_put8_append (v : BitVec 8) : be16 (put8 v ++ B) (i + 1) = be16 B i := rfl

@[simp] theorem be16_put16_append (v : BitVec 16) : be16 (put16 v ++ B) (i + 2) = be16 B i := rfl

@[simp] theorem be16_put32_append (v : BitVec 32) : be16 (put32 v ++ B) (i + 4) = be16 B i := rfl

@[simp] theorem be32_put16_append (v : BitVec 16) : be32 (put16 v ++ B) (i + 2) = be32 B i := rfl

@[simp] theorem be32_put32_append (v : BitVec 32) : be32 (put32 v ++ B) (i + 4) = be32 B i := rfl

end Past

theorem byteAt_put8 (v : BitVec 8) (B : Bytes) : byteAt (put8 v ++ B) 0 = v := rfl

/-! ## The header image and the header record -/

/-- The header bytes of a record (R181), with `sum` in the checksum field. -/
def tcpHeader (x : FTcp) (sum : BitVec 16) : Bytes := patch16 (tcpImage x) 16 sum

/-- The data offset that byte 12 of an image holds, in its high half (R94). -/
def tcpDataOff (B : Bytes) : Nat := (byteAt B 12).toNat / 2 ^ 4

/-- The options of a byte image: bytes 20 to four times its data offset, where that is past 20 and within the image
(R184). -/
def tcpHeaderOptions (B : Bytes) : Bytes :=
  if 20 < 4 * tcpDataOff B ∧ 4 * tcpDataOff B ≤ B.length then (B.drop 20).take (4 * tcpDataOff B - 20) else []

/-- The header record of a byte image (R184), whatever its length. -/
def tcpHeaderRecord (B : Bytes) : FTcp where
  srcPort := be16 B 0
  dstPort := be16 B 2
  seq := be32 B 4
  ack := be32 B 8
  dataOff := BitVec.ofNat 4 (tcpDataOff B)
  flags := BitVec.ofNat 6 (byteAt B 13).toNat
  window := be16 B 14
  checksum := be16 B 16
  urgent := be16 B 18
  options := tcpHeaderOptions B

/-- The options are all the bytes from 20 on where the data offset says so. -/
theorem tcpHeaderOptions_of_length {B : Bytes} (h : 4 * tcpDataOff B = B.length) : tcpHeaderOptions B = B.drop 20 := by
  rw [tcpHeaderOptions, h]
  rcases Nat.lt_or_ge 20 B.length with hlen | hlen
  · rw [if_pos ⟨hlen, Nat.le_refl _⟩, ← List.length_drop, List.take_length]
  · rw [if_neg fun hoptions => Nat.not_lt.mpr hlen hoptions.1, List.drop_eq_nil_of_le hlen]

theorem tcpEncode_of_le {x : FTcp} (h : x.options.length ≤ 40) : tcpEncode x = .ok (tcpHeader x (tcpChecksum x)) :=
  if_neg (Nat.not_lt.mpr h)

theorem tcpEncode_of_lt {x : FTcp} (h : 40 < x.options.length) : tcpEncode x = .error .tooLarge :=
  if_pos h

/-- The data offset that TCP.DEC reads from a 16-bit word is the high half of the word's first byte. -/
theorem be16_dataOff (B : Bytes) (i : Nat) :
    (be16 B i).extractLsb' 12 4 = BitVec.ofNat 4 ((byteAt B i).toNat / 2 ^ 4) := by
  have hlow := (byteAt B (i + 1)).isLt
  rw [extractLsb'_eq_ofNat_div, be16, toNat_append_eq]
  congr 1
  omega

/-- The flags that TCP.DEC reads from a 16-bit word are the low six bits of the word's second byte. -/
theorem be16_flags (B : Bytes) (i : Nat) : (be16 B i).extractLsb' 0 6 = BitVec.ofNat 6 (byteAt B (i + 1)).toNat := by
  apply BitVec.eq_of_toNat_eq
  rw [BitVec.extractLsb'_toNat, be16, toNat_append_eq, Nat.shiftRight_zero, BitVec.toNat_ofNat]
  omega

/-- The options that TCP.DEC copies are those of the image: its data offset fits four bits. -/
theorem tcpOptions_eq (B : Bytes) : tcpOptions B (BitVec.ofNat 4 (tcpDataOff B)) = tcpHeaderOptions B := by
  have hfits : tcpDataOff B < 2 ^ 4 := by
    have hbyte := (byteAt B 12).isLt
    rw [tcpDataOff]
    omega
  rw [tcpOptions, BitVec.toNat_ofNat, Nat.mod_eq_of_lt hfits]
  rfl

theorem tcpDecode_of_le {B : Bytes} (h : 20 ≤ B.length) : tcpDecode B = .ok (tcpHeaderRecord B) := by
  have hdataOff : (be16 B 12).extractLsb' 12 4 = BitVec.ofNat 4 (tcpDataOff B) := be16_dataOff B 12
  rw [tcpDecode, if_neg (Nat.not_lt.mpr h), be16_flags, hdataOff, tcpOptions_eq]
  rfl

theorem tcpDecode_of_lt {B : Bytes} (h : B.length < 20) : tcpDecode B = .error .tooShort :=
  if_pos h

/-! ### The fields of the header, at their offsets -/

section Fields

variable (x : FTcp) (sum : BitVec 16)

theorem tcpHeader_length : (tcpHeader x sum).length = 20 + (tcpPadded x.options).length := by
  rw [tcpHeader, patch16_length (by rw [tcpImage_length]; omega), tcpImage_length]

/-- The header, field by field: past a field, the rest is read as a sequence of its own. -/
theorem tcpHeader_eq :
    tcpHeader x sum =
      put16 x.srcPort ++ (put16 x.dstPort ++ (put32 x.seq ++ (put32 x.ack ++
        (put8 (BitVec.ofNat 8 ((20 + (tcpPadded x.options).length) / 4 * 2 ^ 4)) ++ (put8 (0#2 ++ x.flags) ++
          (put16 x.window ++ (put16 sum ++ (put16 x.urgent ++ tcpPadded x.options)))))))) := by
  simp [tcpHeader, tcpImage, patch16, put8, put16, put32]

/-- The image that the checksum is computed over is the header with its checksum field zero. -/
theorem tcpHeader_zero : tcpHeader x 0#16 = tcpImage x := by
  simp [tcpHeader_eq, tcpImage, put16]

theorem patch16_tcpHeader (v : BitVec 16) : patch16 (tcpHeader x sum) 16 v = tcpHeader x v :=
  patch16_patch16 (by rw [tcpImage_length]; omega) sum v

theorem tcpHeader_srcPort : be16 (tcpHeader x sum) 0 = x.srcPort := by
  simp [tcpHeader_eq, be16_put16]

theorem tcpHeader_dstPort : be16 (tcpHeader x sum) 2 = x.dstPort := by
  simp [tcpHeader_eq, be16_put16]

theorem tcpHeader_seq : be32 (tcpHeader x sum) 4 = x.seq := by
  simp [tcpHeader_eq, be32_put32]

theorem tcpHeader_ack : be32 (tcpHeader x sum) 8 = x.ack := by
  simp [tcpHeader_eq, be32_put32]

theorem tcpHeader_dataOff :
    byteAt (tcpHeader x sum) 12 = BitVec.ofNat 8 ((20 + (tcpPadded x.options).length) / 4 * 2 ^ 4) := by
  simp [tcpHeader_eq, byteAt_put8]

theorem tcpHeader_flags : byteAt (tcpHeader x sum) 13 = 0#2 ++ x.flags := by
  simp [tcpHeader_eq, byteAt_put8]

theorem tcpHeader_window : be16 (tcpHeader x sum) 14 = x.window := by
  simp [tcpHeader_eq, be16_put16]

theorem tcpHeader_checksum : be16 (tcpHeader x sum) 16 = sum := by
  simp [tcpHeader_eq, be16_put16]

theorem tcpHeader_urgent : be16 (tcpHeader x sum) 18 = x.urgent := by
  simp [tcpHeader_eq, be16_put16]

theorem tcpHeader_options : (tcpHeader x sum).drop 20 = tcpPadded x.options := by
  simp [tcpHeader_eq, put8, put16, put32]

/-- The reserved bits before the flags are 0. -/
theorem toNat_tcpHeader_flags : (byteAt (tcpHeader x sum) 13).toNat = x.flags.toNat := by
  rw [tcpHeader_flags, toNat_append_eq, BitVec.toNat_zero, Nat.zero_mul, Nat.zero_add]

variable {x}

/-- A header of at most 60 bytes has its length in words in the high half of byte 12, and 0 in the low half. -/
theorem toNat_tcpHeader_dataOff (h : x.options.length ≤ 40) :
    (byteAt (tcpHeader x sum) 12).toNat = (tcpHeader x sum).length / 4 * 2 ^ 4 := by
  have hpad := tcpPadding_lt x.options.length
  have hmod := add_tcpPadding_mod x.options.length
  rw [tcpHeader_dataOff, tcpHeader_length, tcpPadded_length, BitVec.toNat_ofNat, Nat.mod_eq_of_lt (by omega)]

/-- Four times the data offset is the length of the header, since the options are padded. -/
theorem four_mul_tcpDataOff_tcpHeader (h : x.options.length ≤ 40) :
    4 * tcpDataOff (tcpHeader x sum) = 20 + (tcpPadded x.options).length := by
  have hmod := add_tcpPadding_mod x.options.length
  rw [tcpDataOff, toNat_tcpHeader_dataOff sum h, tcpHeader_length, tcpPadded_length]
  omega

/-- Each field reads back from where the header holds it; the options come back padded, the data offset is the computed
one and the checksum the one put in. -/
theorem tcpHeaderRecord_tcpHeader (h : x.options.length ≤ 40) :
    tcpHeaderRecord (tcpHeader x sum) =
      { x with
        dataOff := BitVec.ofNat 4 (5 + (tcpPadded x.options).length / 4)
        checksum := sum
        options := tcpPadded x.options } := by
  have hfour := four_mul_tcpDataOff_tcpHeader sum h
  have hdataOff : tcpDataOff (tcpHeader x sum) = 5 + (tcpPadded x.options).length / 4 := by omega
  have hoptions : tcpHeaderOptions (tcpHeader x sum) = tcpPadded x.options := by
    rw [tcpHeaderOptions_of_length (hfour.trans (tcpHeader_length x sum).symm), tcpHeader_options]
  rw [tcpHeaderRecord, hoptions, tcpHeader_srcPort, tcpHeader_dstPort, tcpHeader_seq, tcpHeader_ack, hdataOff,
    toNat_tcpHeader_flags, BitVec.ofNat_toNat, BitVec.setWidth_eq, tcpHeader_window, tcpHeader_checksum,
    tcpHeader_urgent]

/-- A record with unpadded options and the matching data offset reads back but for its checksum (R185). -/
theorem tcpHeaderRecord_tcpHeader_of_valid (h : x.options.length ≤ 40) (hmod : x.options.length % 4 = 0)
    (hdataOff : x.dataOff.toNat = 5 + x.options.length / 4) :
    tcpHeaderRecord (tcpHeader x sum) = { x with checksum := sum } := by
  rw [tcpHeaderRecord_tcpHeader sum h, tcpPadded_of_mod hmod, ← hdataOff, BitVec.ofNat_toNat, BitVec.setWidth_eq]

end Fields

/-! ## TCP.ENC -/

theorem exec_tcpEnc (s : State) : exec .tcpEnc s = s.stateless .tcp fun op => (tcpEncode op.tcp).map .bytes := rfl

/-- TCP.ENC returns the header exactly where there are at most 40 bytes of options, which is within every common
limit. -/
theorem returns_tcpEnc_iff {s : State} {B : Bytes} :
    s.Returns .tcpEnc (.bytes B) ↔
      s.op.tcp.options.length ≤ 40 ∧ tcpHeader s.op.tcp (tcpChecksum s.op.tcp) = B := by
  have hlimit := minOperandBytes_le s.cfg
  rw [State.returns_iff_of_stateless (exec_tcpEnc s)]
  rcases Nat.lt_or_ge 40 s.op.tcp.options.length with h | h
  · simp [tcpEncode_of_lt h, Except.map, Nat.not_le.mpr h]
  · have hfits : s.op.tcp.options.length ≤ s.cfg.maxOperandBytes := by omega
    simp [tcpEncode_of_le h, Except.map, OperandRecord.byteFields, h, hfits]

/-- The checksum that TCP.ENC puts into the header is the one of the header with that field zero (R181). -/
theorem tcpChecksum_eq (x : FTcp) (sum : BitVec 16) : tcpChecksum x = ocsum (patch16 (tcpHeader x sum) 16 0#16) := by
  rw [patch16_tcpHeader, tcpHeader_zero, tcpChecksum]

/-- The receiver's check of a header with the checksum of TCP.ENC (R182). -/
theorem ocsum_tcpHeader (x : FTcp) : ocsum (tcpHeader x (tcpChecksum x)) = 0x0000#16 := by
  have hcheck := receiverCheckFoldsToZero (tcpImage x) 16 rfl (by rw [tcpImage_length]; omega)
  rwa [← tcpHeader, ← tcpHeader, tcpHeader_zero, ← tcpChecksum] at hcheck

/-- Settles O41: TCP.ENC's image is the header with the computed checksum, whose fields stand at their offsets. -/
theorem tcpEncImage : Obligations.TcpEncImage := by
  intro s x
  constructor
  · intro h
    have hlength : (tcpHeader x (tcpChecksum x)).length = 20 + x.options.length + tcpPadding x.options.length := by
      rw [tcpHeader_length, tcpPadded_length, Nat.add_assoc]
    have hchecksum : be16 (tcpHeader x (tcpChecksum x)) 16 = ocsum (patch16 (tcpHeader x (tcpChecksum x)) 16 0#16) := by
      rw [← tcpChecksum_eq, tcpHeader_checksum]
    exact ⟨tcpHeader x (tcpChecksum x), tcpPadding x.options.length, returns_tcpEnc_iff.mpr ⟨h, rfl⟩,
      tcpPadding_lt _, add_tcpPadding_mod _, tcpHeader_options x _, hlength, tcpHeader_srcPort x _,
      tcpHeader_dstPort x _, tcpHeader_seq x _, tcpHeader_ack x _, toNat_tcpHeader_dataOff _ h,
      toNat_tcpHeader_flags x _, tcpHeader_window x _, hchecksum, tcpHeader_urgent x _, ocsum_tcpHeader x⟩
  · intro h
    exact State.fails_tooLarge_of_stateless (exec_tcpEnc s) (congrArg (Except.map Result.bytes) (tcpEncode_of_lt h))

/-! ## TCP.DEC -/

theorem exec_tcpDec (s : State) :
    exec .tcpDec s = s.stateless .bytes fun op => (tcpDecode op.bytes.data).map .tcp := rfl

/-- TCP.DEC returns the record exactly where the operand has at least 20 bytes and is within the common limit. -/
theorem returns_tcpDec_iff {s : State} {x : FTcp} :
    s.Returns .tcpDec (.tcp x) ↔
      s.op.bytes.data.length ≤ s.cfg.maxOperandBytes ∧ 20 ≤ s.op.bytes.data.length ∧
        tcpHeaderRecord s.op.bytes.data = x := by
  rw [State.returns_iff_of_stateless (exec_tcpDec s)]
  refine and_congr List.forall_mem_singleton ?_
  rcases Nat.lt_or_ge s.op.bytes.data.length 20 with h | h
  · simp [tcpDecode_of_lt h, Except.map, Nat.not_le.mpr h]
  · simp [tcpDecode_of_le h, Except.map, h]

/-- Settles O42, by the record of the image. -/
theorem tcpDecRecord : Obligations.TcpDecRecord := by
  intro s hlen B d
  constructor
  · intro h
    exact returns_tcpDec_iff.mpr ⟨hlen, h, rfl⟩
  · intro h
    exact State.fails_of_stateless (exec_tcpDec s) (List.forall_mem_singleton.mpr hlen)
      (congrArg (Except.map Result.tcp) (tcpDecode_of_lt h))

/-- Settles O43: the header is at most 60 bytes, within every limit, and its record is the valid one encoded. -/
theorem tcpRoundTrip : Obligations.TcpRoundTrip := by
  intro s u B hreturns hop hmod hdataOff hchecksum
  obtain ⟨hoptions, rfl⟩ := returns_tcpEnc_iff.mp hreturns
  have hlimit := minOperandBytes_le u.cfg
  rw [tcpHeader_checksum] at hchecksum
  rw [returns_tcpDec_iff, hop, tcpHeader_length, tcpPadded_of_mod hmod,
    tcpHeaderRecord_tcpHeader_of_valid _ hoptions hmod hdataOff, ← hchecksum]
  exact ⟨by omega, by omega, rfl⟩

/-! ## TCP.HASFLAG -/

theorem exec_tcpHasFlag (m : BitVec 6) (s : State) :
    exec (.tcpHasFlag m) s = s.stateless .tcp fun op => .ok (.u1 (tcpHasFlags m op.tcp)) := rfl

/-- A mask is contained in a word exactly when every bit of the mask is set in it. -/
theorem and_eq_mask_iff {w : Nat} {v m : BitVec w} :
    v &&& m = m ↔ ∀ j, m.getLsbD j = true → v.getLsbD j = true := by
  constructor
  · intro h j hj
    rw [← h, BitVec.getLsbD_and, Bool.and_eq_true] at hj
    exact hj.1
  · intro h
    apply BitVec.eq_of_getLsbD_eq
    intro j _
    rw [BitVec.getLsbD_and, Bool.and_eq_right_iff_imp]
    exact h j

theorem tcpHasFlags_eq_one_iff {m : BitVec 6} {x : FTcp} : tcpHasFlags m x = 1#1 ↔ x.flags &&& m = m := by
  have hbit (b : Bool) : BitVec.ofBool b = 1#1 ↔ b = true := by cases b <;> decide
  rw [tcpHasFlags, hbit, beq_iff_eq]

/-- Settles O44: the mask is contained in the flags. -/
theorem tcpHasFlagResult : Obligations.TcpHasFlagResult := by
  intro s m hlen
  exact ⟨tcpHasFlags m s.op.tcp,
    (State.returns_iff_of_stateless (exec_tcpHasFlag m s)).mpr ⟨List.forall_mem_singleton.mpr hlen, rfl⟩,
    tcpHasFlags_eq_one_iff.trans and_eq_mask_iff⟩

end Sys2Proof.Machine
end

section
/-! PROOFS. The UDP and ICMP family (44_udp_icmp.md): each codec's image with its checksum in place and the record that
reads back from it, and what each UDP.* and ICMP.* command returns. -/

namespace Sys2Proof.Machine

/-! ## Decoders of a header and a payload -/

section Decoders

variable {α : Type} {s : State} {i : Instr} {n : Nat} {decode : Bytes → Except ErrorKind α} {record : Bytes → α}
  {wrap : α → Result}

/-- A decoder that asks for `n` bytes returns the record exactly where the operand has them and is within the common
limit. -/
theorem State.returns_iff_of_decoder {x : α} (hwrap : Function.Injective wrap)
    (hexec : exec i s = s.stateless .bytes fun op => (decode op.bytes.data).map wrap)
    (hdecode : ∀ B, decode B = if B.length < n then .error .tooShort else .ok (record B)) :
    s.Returns i (wrap x) ↔
      s.op.bytes.data.length ≤ s.cfg.maxOperandBytes ∧ n ≤ s.op.bytes.data.length ∧
        record s.op.bytes.data = x := by
  rw [State.returns_iff_of_stateless hexec]
  refine and_congr List.forall_mem_singleton ?_
  rcases Nat.lt_or_ge s.op.bytes.data.length n with h | h
  · simp [hdecode, Except.map, h, Nat.not_le.mpr h]
  · simp [hdecode, Except.map, h, Nat.not_lt.mpr h, hwrap.eq_iff]

/-- A decoder that asks for `n` bytes fails with TooShort on fewer. -/
theorem State.fails_tooShort_of_decoder
    (hexec : exec i s = s.stateless .bytes fun op => (decode op.bytes.data).map wrap)
    (hdecode : ∀ B, decode B = if B.length < n then .error .tooShort else .ok (record B))
    (hlen : s.op.bytes.data.length ≤ s.cfg.maxOperandBytes) (h : s.op.bytes.data.length < n) :
    s.Fails i .tooShort :=
  State.fails_of_stateless hexec (List.forall_mem_singleton.mpr hlen)
    (congrArg (Except.map wrap) ((hdecode _).trans (if_pos h)))

end Decoders

/-! ## The UDP packet and its record -/

/-- The packet bytes of a record (R201), with `sum` in the checksum field. -/
def udpPacket (x : FUdp) (sum : BitVec 16) : Bytes := patch16 (udpImage x) 6 sum

/-- The packet record of a byte image (R203), whatever its length. -/
def udpPacketRecord (B : Bytes) : FUdp where
  srcPort := be16 B 0
  dstPort := be16 B 2
  length := be16 B 4
  checksum := be16 B 6
  payload := B.drop 8

theorem udpEncode_of_le {scope : CsumScope} {x : FUdp} (h : 8 + x.payload.length ≤ 65535) :
    udpEncode scope x = .ok (udpPacket x (udpChecksum scope x)) :=
  if_neg (Nat.not_lt.mpr h)

theorem udpEncode_of_lt {scope : CsumScope} {x : FUdp} (h : 65535 < 8 + x.payload.length) :
    udpEncode scope x = .error .tooLarge :=
  if_pos h

theorem udpDecode_eq (B : Bytes) :
    udpDecode B = if B.length < 8 then .error .tooShort else .ok (udpPacketRecord B) := by
  rw [udpDecode, slice_to_end]
  rfl

section Packet

variable (x : FUdp) (sum : BitVec 16)

@[simp] theorem udpPacket_length : (udpPacket x sum).length = 8 + x.payload.length := by
  rw [udpPacket, patch16_length (by rw [udpImage_length]; omega), udpImage_length]

/-- The image that the checksum is computed over is the packet with its checksum field zero. -/
theorem udpPacket_zero : udpPacket x 0#16 = udpImage x := rfl

theorem patch16_udpPacket (v : BitVec 16) : patch16 (udpPacket x sum) 6 v = udpPacket x v :=
  patch16_patch16 (by rw [udpImage_length]; omega) sum v

theorem udpPacket_srcPort : be16 (udpPacket x sum) 0 = x.srcPort := be16_put16 _ []

theorem udpPacket_dstPort : be16 (udpPacket x sum) 2 = x.dstPort := be16_put16 _ []

theorem udpPacket_lengthField : be16 (udpPacket x sum) 4 = BitVec.ofNat 16 (8 + x.payload.length) := be16_put16 _ []

theorem udpPacket_checksum : be16 (udpPacket x sum) 6 = sum := be16_put16 _ []

theorem udpPacket_payload : (udpPacket x sum).drop 8 = x.payload := rfl

/-- Each field reads back from where the packet holds it; the length is the computed one and the checksum the one put
in. -/
theorem udpPacketRecord_udpPacket :
    udpPacketRecord (udpPacket x sum) =
      { x with length := BitVec.ofNat 16 (8 + x.payload.length), checksum := sum } := by
  rw [udpPacketRecord, udpPacket_srcPort, udpPacket_dstPort, udpPacket_lengthField, udpPacket_checksum,
    udpPacket_payload]

end Packet

/-! ### What the checksum covers -/

theorem udpCovered_eq_ite (scope : CsumScope) (B : Bytes) :
    udpCovered scope B = if scope = .hdrPayload then B else B.take 8 := by
  cases scope <;> rfl

theorem le_udpCovered_length (scope : CsumScope) {B : Bytes} (h : 8 ≤ B.length) : 8 ≤ (udpCovered scope B).length := by
  cases scope with
  | hdrPayload => exact h
  | hdrOnly => exact (List.length_take_of_le h).ge

/-- The checksum field is covered in either scope, so a write to it is a write to what is covered. -/
theorem udpCovered_patch16 (scope : CsumScope) {B : Bytes} (h : 8 ≤ B.length) (v : BitVec 16) :
    udpCovered scope (patch16 B 6 v) = patch16 (udpCovered scope B) 6 v := by
  cases scope with
  | hdrPayload => rfl
  | hdrOnly =>
    have hheader : (B.take 8).length = 8 := List.length_take_of_le h
    have hwritten : (patch16 (B.take 8) 6 v).length = 8 := by rw [patch16_length hheader.ge, hheader]
    calc (patch16 B 6 v).take 8 = (patch16 (B.take 8 ++ B.drop 8) 6 v).take 8 := by rw [List.take_append_drop]
      _ = (patch16 (B.take 8) 6 v ++ B.drop 8).take 8 := by rw [patch16_append_left hheader.ge]
      _ = patch16 (B.take 8) 6 v := List.take_left' hwritten

/-- The checksum that UDP.ENC puts into the packet is the one of its coverage with that field zero (R201). -/
theorem udpChecksum_eq (scope : CsumScope) (x : FUdp) (sum : BitVec 16) :
    udpChecksum scope x = ocsum (udpCovered scope (patch16 (udpPacket x sum) 6 0#16)) := by
  rw [patch16_udpPacket, udpPacket_zero, udpChecksum]

/-- The receiver's check of what the checksum of UDP.ENC covers (R202). -/
theorem ocsum_udpCovered_udpPacket (scope : CsumScope) (x : FUdp) :
    ocsum (udpCovered scope (udpPacket x (udpChecksum scope x))) = 0x0000#16 := by
  have himage : 8 ≤ (udpImage x).length := by
    rw [udpImage_length]
    omega
  have hcheck := receiverCheckFoldsToZero (udpCovered scope (udpImage x)) 6 rfl (le_udpCovered_length scope himage)
  rwa [← udpCovered_patch16 scope himage, ← udpCovered_patch16 scope himage, ← udpPacket, ← udpPacket, udpPacket_zero,
    ← udpChecksum] at hcheck

/-! ## UDP.ENC -/

theorem exec_udpEnc (s : State) :
    exec .udpEnc s = s.stateless .udp fun op => (udpEncode s.cfg.udpCsumScope op.udp).map .bytes := rfl

/-- UDP.ENC returns the packet exactly where it has at most 65535 bytes, which is within every common limit. -/
theorem returns_udpEnc_iff {s : State} {B : Bytes} :
    s.Returns .udpEnc (.bytes B) ↔
      8 + s.op.udp.payload.length ≤ 65535 ∧ udpPacket s.op.udp (udpChecksum s.cfg.udpCsumScope s.op.udp) = B := by
  have hlimit := minOperandBytes_le s.cfg
  rw [State.returns_iff_of_stateless (exec_udpEnc s)]
  rcases Nat.lt_or_ge 65535 (8 + s.op.udp.payload.length) with h | h
  · simp [udpEncode_of_lt h, Except.map, Nat.not_le.mpr h]
  · have hfits : s.op.udp.payload.length ≤ s.cfg.maxOperandBytes := by omega
    simp [udpEncode_of_le h, Except.map, OperandRecord.byteFields, h, hfits]

/-- Settles O45: UDP.ENC's image is the packet with the computed checksum, whose fields stand at their offsets. -/
theorem udpEncImage : Obligations.UdpEncImage := by
  intro s x cov
  have hcov : cov = udpCovered s.cfg.udpCsumScope := funext fun B => (udpCovered_eq_ite _ B).symm
  rw [hcov]
  constructor
  · intro h
    have hlength : (be16 (udpPacket x (udpChecksum s.cfg.udpCsumScope x)) 4).toNat =
        (udpPacket x (udpChecksum s.cfg.udpCsumScope x)).length := by
      rw [udpPacket_lengthField, udpPacket_length, BitVec.toNat_ofNat, Nat.mod_eq_of_lt (by omega)]
    exact ⟨udpPacket x (udpChecksum s.cfg.udpCsumScope x), returns_udpEnc_iff.mpr ⟨h, rfl⟩, udpPacket_length x _,
      udpPacket_srcPort x _, udpPacket_dstPort x _, hlength,
      (udpPacket_checksum x _).trans (udpChecksum_eq _ x _), udpPacket_payload x _, ocsum_udpCovered_udpPacket _ x⟩
  · intro h
    exact State.fails_tooLarge_of_stateless (exec_udpEnc s) (congrArg (Except.map Result.bytes) (udpEncode_of_lt h))

/-! ## UDP.DEC -/

theorem exec_udpDec (s : State) :
    exec .udpDec s = s.stateless .bytes fun op => (udpDecode op.bytes.data).map .udp := rfl

theorem returns_udpDec_iff {s : State} {x : FUdp} :
    s.Returns .udpDec (.udp x) ↔
      s.op.bytes.data.length ≤ s.cfg.maxOperandBytes ∧ 8 ≤ s.op.bytes.data.length ∧
        udpPacketRecord s.op.bytes.data = x :=
  State.returns_iff_of_decoder (fun _ _ => Result.udp.inj) (exec_udpDec s) udpDecode_eq

/-- Settles O46, by the record of the image. -/
theorem udpDecRecord : Obligations.UdpDecRecord := fun s hlen =>
  ⟨fun h => returns_udpDec_iff.mpr ⟨hlen, h, rfl⟩,
    State.fails_tooShort_of_decoder (exec_udpDec s) udpDecode_eq hlen⟩

/-- Settles O47: the packet is within every limit, and its record is the valid one encoded. -/
theorem udpRoundTrip : Obligations.UdpRoundTrip := by
  intro s u B hreturns hop hlength hchecksum
  obtain ⟨hpacket, rfl⟩ := returns_udpEnc_iff.mp hreturns
  have hlimit := minOperandBytes_le u.cfg
  rw [udpPacket_checksum] at hchecksum
  rw [returns_udpDec_iff, hop, udpPacket_length, udpPacketRecord_udpPacket, ← hlength, BitVec.ofNat_toNat,
    BitVec.setWidth_eq, ← hchecksum]
  exact ⟨by omega, by omega, rfl⟩

/-! ## The ICMP message and its record -/

/-- The message bytes of a record (R211), with `sum` in the checksum field. -/
def icmpMessage (x : FIcmp) (sum : BitVec 16) : Bytes := patch16 (icmpImage x) 2 sum

/-- The message record of a byte image (R213), whatever its length. -/
def icmpMessageRecord (B : Bytes) : FIcmp where
  itype := byteAt B 0
  code := byteAt B 1
  checksum := be16 B 2
  id := be16 B 4
  seq := be16 B 6
  payload := B.drop 8

theorem icmpEncode_of_le {p : Params} {x : FIcmp} (h : 8 + x.payload.length ≤ p.maxOperandBytes) :
    icmpEncode p x = .ok (icmpMessage x (icmpChecksum x)) :=
  (icmpEncode_eq p x).trans (if_pos h)

theorem icmpEncode_of_lt {p : Params} {x : FIcmp} (h : p.maxOperandBytes < 8 + x.payload.length) :
    icmpEncode p x = .error .tooLarge :=
  (icmpEncode_eq p x).trans (if_neg (Nat.not_le.mpr h))

theorem icmpDecode_eq (B : Bytes) :
    icmpDecode B = if B.length < 8 then .error .tooShort else .ok (icmpMessageRecord B) := by
  rw [icmpDecode, slice_to_end]
  rfl

section Message

variable (x : FIcmp) (sum : BitVec 16)

@[simp] theorem icmpMessage_length : (icmpMessage x sum).length = 8 + x.payload.length := by
  rw [icmpMessage, patch16_length (by rw [icmpImage_length]; omega), icmpImage_length]

/-- The image that the checksum is computed over is the message with its checksum field zero. -/
theorem icmpMessage_zero : icmpMessage x 0#16 = icmpImage x := rfl

theorem patch16_icmpMessage (v : BitVec 16) : patch16 (icmpMessage x sum) 2 v = icmpMessage x v :=
  patch16_patch16 (by rw [icmpImage_length]; omega) sum v

theorem icmpMessage_itype : byteAt (icmpMessage x sum) 0 = x.itype := rfl

theorem icmpMessage_code : byteAt (icmpMessage x sum) 1 = x.code := rfl

theorem icmpMessage_checksum : be16 (icmpMessage x sum) 2 = sum := be16_put16 _ []

theorem icmpMessage_id : be16 (icmpMessage x sum) 4 = x.id := be16_put16 _ []

theorem icmpMessage_seq : be16 (icmpMessage x sum) 6 = x.seq := be16_put16 _ []

theorem icmpMessage_payload : (icmpMessage x sum).drop 8 = x.payload := rfl

/-- Each field reads back from where the message holds it; the checksum is the one put in. -/
theorem icmpMessageRecord_icmpMessage : icmpMessageRecord (icmpMessage x sum) = { x with checksum := sum } := by
  rw [icmpMessageRecord, icmpMessage_itype, icmpMessage_code, icmpMessage_checksum, icmpMessage_id, icmpMessage_seq,
    icmpMessage_payload]

/-- The checksum that ICMP.ENC puts into the message is the one of the message with that field zero (R211). -/
theorem icmpChecksum_eq : icmpChecksum x = ocsum (patch16 (icmpMessage x sum) 2 0#16) := by
  rw [patch16_icmpMessage, icmpMessage_zero, icmpChecksum]

/-- The receiver's check of a message with the checksum of ICMP.ENC (R212). -/
theorem ocsum_icmpMessage : ocsum (icmpMessage x (icmpChecksum x)) = 0x0000#16 := by
  have hcheck := receiverCheckFoldsToZero (icmpImage x) 2 rfl (by rw [icmpImage_length]; omega)
  rwa [← icmpMessage, ← icmpMessage, icmpMessage_zero, ← icmpChecksum] at hcheck

end Message

/-! ## ICMP.ENC -/

theorem exec_icmpEnc (s : State) :
    exec .icmpEnc s = s.stateless .icmp fun op => (icmpEncode s.cfg op.icmp).map .bytes := rfl

/-- ICMP.ENC returns the message exactly where it is within the common limit, and then so is the payload. (The result
is rewritten before `Except.map` unfolds, or the kernel evaluates the limit in `icmpEncode`.) -/
theorem returns_icmpEnc_iff {s : State} {B : Bytes} :
    s.Returns .icmpEnc (.bytes B) ↔
      8 + s.op.icmp.payload.length ≤ s.cfg.maxOperandBytes ∧ icmpMessage s.op.icmp (icmpChecksum s.op.icmp) = B := by
  rw [State.returns_iff_of_stateless (exec_icmpEnc s)]
  rcases Nat.lt_or_ge s.cfg.maxOperandBytes (8 + s.op.icmp.payload.length) with h | h
  · rw [icmpEncode_of_lt h]
    simp [Except.map, Nat.not_le.mpr h]
  · have hfits : s.op.icmp.payload.length ≤ s.cfg.maxOperandBytes := by omega
    rw [icmpEncode_of_le h]
    simp [Except.map, OperandRecord.byteFields, h, hfits]

/-- Settles O48: ICMP.ENC's image is the message with the computed checksum, whose fields stand at their offsets. -/
theorem icmpEncImage : Obligations.IcmpEncImage := by
  intro s x
  constructor
  · intro h
    exact ⟨icmpMessage x (icmpChecksum x), returns_icmpEnc_iff.mpr ⟨h, rfl⟩, icmpMessage_length x _,
      icmpMessage_itype x _, icmpMessage_code x _, (icmpMessage_checksum x _).trans (icmpChecksum_eq x _),
      icmpMessage_id x _, icmpMessage_seq x _, icmpMessage_payload x _, ocsum_icmpMessage x⟩
  · intro h
    exact State.fails_tooLarge_of_stateless (exec_icmpEnc s) (congrArg (Except.map Result.bytes) (icmpEncode_of_lt h))

/-! ## ICMP.DEC -/

theorem exec_icmpDec (s : State) :
    exec .icmpDec s = s.stateless .bytes fun op => (icmpDecode op.bytes.data).map .icmp := rfl

theorem returns_icmpDec_iff {s : State} {x : FIcmp} :
    s.Returns .icmpDec (.icmp x) ↔
      s.op.bytes.data.length ≤ s.cfg.maxOperandBytes ∧ 8 ≤ s.op.bytes.data.length ∧
        icmpMessageRecord s.op.bytes.data = x :=
  State.returns_iff_of_decoder (fun _ _ => Result.icmp.inj) (exec_icmpDec s) icmpDecode_eq

/-- Settles O49, by the record of the image. -/
theorem icmpDecRecord : Obligations.IcmpDecRecord := fun s hlen =>
  ⟨fun h => returns_icmpDec_iff.mpr ⟨hlen, h, rfl⟩,
    State.fails_tooShort_of_decoder (exec_icmpDec s) icmpDecode_eq hlen⟩

/-- Settles O50: the message is within the decoding block's limit, since it was a result or by the premise, and its
record is the one encoded. -/
theorem icmpRoundTrip : Obligations.IcmpRoundTrip := by
  intro s u B hreturns hop hlimit hchecksum
  obtain ⟨hmessage, rfl⟩ := returns_icmpEnc_iff.mp hreturns
  have hfits : 8 + s.op.icmp.payload.length ≤ u.cfg.maxOperandBytes := by
    rcases hlimit with hcfg | hlen
    · rwa [hcfg]
    · rwa [icmpMessage_length] at hlen
  rw [icmpMessage_checksum] at hchecksum
  rw [returns_icmpDec_iff, hop, icmpMessage_length, icmpMessageRecord_icmpMessage, ← hchecksum]
  exact ⟨hfits, Nat.le_add_right 8 _, rfl⟩

/-! ## ICMP.ISREQ, ICMP.ISREP and ICMP.REPLY -/

theorem exec_icmpIsReq (s : State) :
    exec .icmpIsReq s = s.stateless .icmp fun op => .ok (.u1 (icmpIsRequest op.icmp)) := rfl

theorem exec_icmpIsRep (s : State) :
    exec .icmpIsRep s = s.stateless .icmp fun op => .ok (.u1 (icmpIsReply op.icmp)) := rfl

theorem exec_icmpReply (s : State) :
    exec .icmpReply s = s.stateless .icmp fun op => .ok (.icmp (icmpReplyTo op.icmp)) := rfl

/-- The u1 value of an equality test, on the words as numbers. -/
theorem ofBool_beq {w : Nat} (a b : BitVec w) : BitVec.ofBool (a == b) = if a.toNat = b.toNat then 1 else 0 := by
  rw [beq_eq_decide, ofBool_decide]
  exact if_congr BitVec.toNat_inj.symm rfl rfl

theorem icmpIsRequest_eq (x : FIcmp) : icmpIsRequest x = if x.itype.toNat = 8 then 1 else 0 :=
  ofBool_beq x.itype icmpEchoRequest

theorem icmpIsReply_eq (x : FIcmp) : icmpIsReply x = if x.itype.toNat = 0 then 1 else 0 :=
  ofBool_beq x.itype icmpEchoReply

/-- Settles O51: the three commands make no check of their own. -/
theorem icmpPredicatesAndReply : Obligations.IcmpPredicatesAndReply := by
  intro s hlen
  have hfits : ∀ B ∈ s.op.byteFields .icmp, B.length ≤ s.cfg.maxOperandBytes := List.forall_mem_singleton.mpr hlen
  rw [← icmpIsRequest_eq, ← icmpIsReply_eq]
  exact ⟨(State.returns_iff_of_stateless (exec_icmpIsReq s)).mpr ⟨hfits, rfl⟩,
    (State.returns_iff_of_stateless (exec_icmpIsRep s)).mpr ⟨hfits, rfl⟩,
    (State.returns_iff_of_stateless (exec_icmpReply s)).mpr ⟨hfits, rfl⟩⟩

end Sys2Proof.Machine
end

section
/-! PROOFS. The connection family (45_connection.md): what each CONN.* command leaves of its context and returns, and
the STATE column of the transition table. -/

namespace Sys2Proof.Machine

/-! ## Commands on a context the block has -/

section OnContext

variable {i : Instr} {s : State} {k : BitVec 8} {f : Format} {run : Conn → Except ErrorKind Done} {c : Conn}

/-- A CONN.* command with operands within the limit leaves what its function gives. -/
theorem State.next_of_onContext {d : Done} (hexec : exec i s = s.onContext k f run) (hc : s.conn? k = some c)
    (hfits : ∀ B ∈ s.op.byteFields f, B.length ≤ s.cfg.maxOperandBytes) (hrun : run c = .ok d) :
    exec i s = .next (((s.setConn k d.conn).advanceDraws d.draws).respond (.success d.result d.notes)) :=
  hexec.trans (State.onContext_ok hc hfits hrun)

/-- A CONN.* command that leaves its context as it was and draws nothing only adds its response. -/
theorem State.next_of_onContext_unchanged {result : Option Result} (hexec : exec i s = s.onContext k f run)
    (hc : s.conn? k = some c) (hfits : ∀ B ∈ s.op.byteFields f, B.length ≤ s.cfg.maxOperandBytes)
    (hrun : run c = .ok { conn := c, result := result }) :
    exec i s = .next (s.respond (.success result [])) := by
  rw [State.next_of_onContext hexec hc hfits hrun, State.setConn_self hc, State.advanceDraws_zero]

/-- A CONN.* command with operands within the limit fails with the error its function gives. -/
theorem State.fails_of_onContext {e : ErrorKind} (hexec : exec i s = s.onContext k f run) (hc : s.conn? k = some c)
    (hfits : ∀ B ∈ s.op.byteFields f, B.length ≤ s.cfg.maxOperandBytes) (hrun : run c = .error e) : s.Fails i e :=
  hexec.trans (State.onContext_error hc hfits hrun)

/-- What a CONN.* command that succeeds leaves in its context. -/
theorem State.conn?_of_onContext {t : State} {d : Done} (hexec : exec i s = s.onContext k f run)
    (hc : s.conn? k = some c) (hfits : ∀ B ∈ s.op.byteFields f, B.length ≤ s.cfg.maxOperandBytes)
    (hrun : run c = .ok d) (ht : exec i s = .next t) : t.conn? k = some d.conn := by
  cases (State.next_of_onContext hexec hc hfits hrun).symm.trans ht
  exact State.conn?_setConn_self hc d.conn

/-- A command that fails leaves every context as it was. -/
theorem State.Fails.conn?_eq {t : State} {e : ErrorKind} (h : s.Fails i e) (ht : exec i s = .next t) (j : BitVec 8) :
    t.conn? j = s.conn? j := by
  cases h.symm.trans ht
  rfl

end OnContext

/-! ## The commands' functions -/

section Functions

variable {p : Params} {data : Bytes} {c : Conn}

/-- A buffer is past CONN_BUF_CAP only where that is finite (10_state.md R31). -/
theorem withinCap_eq_true_iff_not_exists {cap : Option Nat} {n : Nat} :
    withinCap cap n = true ↔ ¬ ∃ m, cap = some m ∧ m < n := by
  rw [withinCap_iff]
  push Not
  rfl

theorem withinCap_eq_false_iff_exists {cap : Option Nat} {n : Nat} :
    withinCap cap n = false ↔ ∃ m, cap = some m ∧ m < n := by
  rw [← Bool.not_eq_true, withinCap_eq_true_iff_not_exists, not_not]

/-- A sequence number moved on, as a number mod 2^w. -/
theorem add_ofNat_eq {w : Nat} (v : BitVec w) (n : Nat) : v + BitVec.ofNat w n = BitVec.ofNat w (v.toNat + n) := by
  rw [BitVec.ofNat_add, BitVec.ofNat_toNat, BitVec.setWidth_eq]

theorem connConnected_of_closed (isn : BitVec 32) (h : c.state = .closed) :
    connConnected p isn c =
      .ok
        { conn :=
            { c with
              state := .established
              sndSeq := BitVec.ofNat 32 (isn.toNat + p.pSynAdv.toNat)
              rcvSeq := BitVec.ofNat 32 (isn.toNat + 1) }
          notes := noteState c.cbEn .established
          draws := 1 } := by
  rw [← add_ofNat_eq, ← add_ofNat_eq, BitVec.ofNat_toNat]
  exact if_neg (not_not.mpr h)

theorem connConnected_of_not_closed (isn : BitVec 32) (h : c.state ≠ .closed) :
    connConnected p isn c = .error .invalidState :=
  if_pos h

theorem connSent_of_within (h : c.state = .established)
    (hcap : withinCap p.connBufCap (c.sndBuf.length + data.length) = true) :
    connSent p data c =
      .ok
        { conn :=
            { c with
              sndBuf := c.sndBuf ++ data
              sndSeq := BitVec.ofNat 32 (c.sndSeq.toNat + data.length) } } := by
  simp [connSent, h, hcap, add_ofNat_eq]

theorem connSent_of_past (h : c.state = .established)
    (hcap : withinCap p.connBufCap (c.sndBuf.length + data.length) = false) :
    connSent p data c = .error .tooLarge := by
  simp [connSent, h, hcap]

theorem connSent_of_not_established (h : c.state ≠ .established) : connSent p data c = .error .invalidState :=
  if_pos h

theorem connReceived_of_within (hcap : withinCap p.connBufCap (c.rcvBuf.length + data.length) = true) :
    connReceived p data c =
      .ok
        { conn :=
            { c with
              rcvBuf := c.rcvBuf ++ data
              rcvSeq := BitVec.ofNat 32 (c.rcvSeq.toNat + data.length) }
          notes := noteData c.cbEn data } := by
  simp [connReceived, hcap, add_ofNat_eq]

theorem connReceived_of_past (hcap : withinCap p.connBufCap (c.rcvBuf.length + data.length) = false) :
    connReceived p data c = .error .tooLarge := by
  simp [connReceived, hcap]

theorem connClosed_of_closed (h : c.state = .closed) : connClosed c = { conn := c } := if_pos h

theorem connClosed_of_not_closed (h : c.state ≠ .closed) :
    connClosed c = { conn := { c with state := .closed }, notes := noteState c.cbEn .finWait1 } :=
  if_neg h

/-- CONN.CLOSE leaves CLOSED either way (R253, R254). -/
theorem connClosed_state (c : Conn) : (connClosed c).conn.state = .closed := by
  by_cases h : c.state = .closed
  · rw [connClosed_of_closed h, h]
  · rw [connClosed_of_not_closed h]

theorem connBufferRead_of_le {b : BufSel} (h : (c.buffer b).length ≤ p.maxOperandBytes) :
    connBufferRead p b c = .ok { conn := c, result := some (.bytes (c.buffer b)) } := by
  rw [connBufferRead, boundedResult_of_le h, Except.map]

theorem connBufferRead_of_lt {b : BufSel} (h : p.maxOperandBytes < (c.buffer b).length) :
    connBufferRead p b c = .error .tooLarge := by
  rw [connBufferRead, boundedResult_of_lt h, Except.map]

theorem Conn.buffer_eq_ite (c : Conn) (b : BufSel) :
    c.buffer b = if b.bit = 0#1 then c.sndBuf else c.rcvBuf := by
  cases b <;> rfl

end Functions

/-! ## CONN.CREATE, CONN.CONNECT, CONN.LISTEN -/

theorem exec_connConnect (s : State) (k : BitVec 8) :
    exec (.connConnect k) s = s.onContext k .none (connConnected s.cfg s.isn) := rfl

theorem exec_connListen (s : State) (k : BitVec 8) :
    exec (.connListen k) s = s.onContext k .none fun c => .ok (connListening c) := rfl

/-- Settles O52: nothing of the context before it is read, and no operand can be too long. -/
theorem connCreateEffect : Obligations.ConnCreateEffect := by
  intro s k hk
  obtain ⟨c, hc⟩ := State.exists_conn? hk
  exact exec_connCreate hc

theorem fails_connConnect {s : State} {k : BitVec 8} {c : Conn} (hc : s.conn? k = some c) (h : c.state ≠ .closed) :
    s.Fails (.connConnect k) .invalidState :=
  State.fails_of_onContext (exec_connConnect s k) hc nofun (connConnected_of_not_closed s.isn h)

/-- Settles O53: the value drawn is the state's next one, and the block has made one more draw. -/
theorem connConnectEffect : Obligations.ConnConnectEffect := fun s k _ hc =>
  ⟨fun h => ⟨s.isn, s.draws + 1,
      State.next_of_onContext (exec_connConnect s k) hc nofun (connConnected_of_closed s.isn h)⟩,
    fails_connConnect hc⟩

/-- Settles O54: CONN.LISTEN makes no check. -/
theorem connListenEffect : Obligations.ConnListenEffect := fun s k _ hc =>
  State.next_of_onContext (exec_connListen s k) hc nofun rfl

/-! ## CONN.SEND, CONN.RECV, CONN.CLOSE -/

theorem exec_connSend (s : State) (k : BitVec 8) :
    exec (.connSend k) s = s.onContext k .bytes (connSent s.cfg s.op.bytes.data) := rfl

theorem exec_connRecv (s : State) (k : BitVec 8) :
    exec (.connRecv k) s = s.onContext k .bytes (connReceived s.cfg s.op.bytes.data) := rfl

theorem exec_connClose (s : State) (k : BitVec 8) :
    exec (.connClose k) s = s.onContext k .none fun c => .ok (connClosed c) := rfl

/-- Settles O55: the state is checked before the capacity. -/
theorem connSendEffect : Obligations.ConnSendEffect := by
  intro s k c hc hlen data full
  have hfits : ∀ B ∈ s.op.byteFields .bytes, B.length ≤ s.cfg.maxOperandBytes := List.forall_mem_singleton.mpr hlen
  refine ⟨fun hstate hfull => ?_, fun hstate hfull => ?_, fun hstate => ?_⟩
  · have hsent := connSent_of_within hstate (withinCap_eq_true_iff_not_exists.mpr hfull)
    exact State.next_of_onContext (exec_connSend s k) hc hfits hsent
  · have hsent := connSent_of_past hstate (withinCap_eq_false_iff_exists.mpr hfull)
    exact State.fails_of_onContext (exec_connSend s k) hc hfits hsent
  · exact State.fails_of_onContext (exec_connSend s k) hc hfits (connSent_of_not_established hstate)

/-- Settles O56: the capacity is the only check. -/
theorem connRecvEffect : Obligations.ConnRecvEffect := by
  intro s k c hc hlen data full
  have hfits : ∀ B ∈ s.op.byteFields .bytes, B.length ≤ s.cfg.maxOperandBytes := List.forall_mem_singleton.mpr hlen
  refine ⟨fun hfull => ?_, fun hfull => ?_⟩
  · have hreceived := connReceived_of_within (withinCap_eq_true_iff_not_exists.mpr hfull)
    exact State.next_of_onContext (exec_connRecv s k) hc hfits hreceived
  · have hreceived := connReceived_of_past (withinCap_eq_false_iff_exists.mpr hfull)
    exact State.fails_of_onContext (exec_connRecv s k) hc hfits hreceived

/-- Settles O57, by the state of the context. -/
theorem connCloseEffect : Obligations.ConnCloseEffect := fun s k _ hc =>
  ⟨fun h => State.next_of_onContext (exec_connClose s k) hc nofun
      (congrArg Except.ok (connClosed_of_not_closed h)),
    fun h => State.next_of_onContext_unchanged (exec_connClose s k) hc nofun
      (congrArg Except.ok (connClosed_of_closed h))⟩

/-! ## CONN.SETCB, CONN.RDREG, CONN.RDBUF -/

theorem exec_connSetCb (s : State) (k : BitVec 8) (e : BitVec 2) :
    exec (.connSetCb k e) s = s.onContext k .none fun c => .ok { conn := { c with cbEn := e } } := rfl

theorem exec_connRdReg (s : State) (k : BitVec 8) (r : Reg) :
    exec (.connRdReg k r) s = s.onContext k .none fun c => .ok { conn := c, result := some (.u32 (c.read r)) } := rfl

theorem exec_connRdBuf (s : State) (k : BitVec 8) (b : BufSel) :
    exec (.connRdBuf k b) s = s.onContext k .none (connBufferRead s.cfg b) := rfl

/-- Settles O58: CONN.SETCB makes no check. -/
theorem connSetCbEffect : Obligations.ConnSetCbEffect := fun s k e _ hc =>
  State.next_of_onContext (exec_connSetCb s k e) hc nofun rfl

/-- The list of all registers holds each at its number (10_state.md R26). -/
theorem Reg.all_getElem?_number (r : Reg) : Reg.all[r.number.toNat]? = some r := by cases r <;> rfl

/-- Settles O59: the table holds, at each register's number, what reading that register gives. -/
theorem connRdRegResult : Obligations.ConnRdRegResult := by
  intro s k r c hc table
  have htable : table = Reg.all.map fun r => (c.read r).toNat := by
    simp (disch := decide) only [table, Reg.all, Conn.read, List.map_cons, List.map_nil, BitVec.toNat_ofNat,
      BitVec.toNat_setWidth_of_le]
  refine ⟨c.read r, State.next_of_onContext_unchanged (exec_connRdReg s k r) hc nofun rfl, ?_⟩
  rw [htable, List.getElem?_map, Reg.all_getElem?_number, Option.map_some]

/-- Settles O60: the buffer is a result exactly where it is within the limit. -/
theorem connRdBufResult : Obligations.ConnRdBufResult := by
  intro s k b c hc buf
  have hbuf : buf = c.buffer b := (c.buffer_eq_ite b).symm
  rw [hbuf]
  exact ⟨fun h => State.next_of_onContext_unchanged (exec_connRdBuf s k b) hc nofun (connBufferRead_of_le h),
    fun h => State.fails_of_onContext (exec_connRdBuf s k b) hc nofun (connBufferRead_of_lt h)⟩

/-! ## The transition table -/

/-- Settles O24: the four commands that move STATE, each by what it leaves in the context; no other command writes
STATE. -/
theorem transitionTable : Obligations.TransitionTable := by
  intro i s t k c d _ _ hexec hc hd
  have hwriters := (registerWriters i s t k c d hexec hc hd).1
  refine ⟨?_, ?_, ?_, ?_, ?_, fun hi => by_contra fun hstate => hi (hwriters hstate)⟩
  · rintro rfl
    cases (exec_connCreate hc).symm.trans hexec
    cases (State.conn?_setConn_self hc _).symm.trans hd
    rfl
  · rintro rfl hclosed
    have hleft := State.conn?_of_onContext (exec_connConnect s k) hc nofun (connConnected_of_closed s.isn hclosed) hexec
    cases hleft.symm.trans hd
    rfl
  · rintro rfl hnot
    have hleft := ((fails_connConnect hc hnot).conn?_eq hexec k).trans hc
    cases hleft.symm.trans hd
    rfl
  · rintro rfl
    cases (State.conn?_of_onContext (exec_connListen s k) hc nofun rfl hexec).symm.trans hd
    rfl
  · rintro rfl
    cases (State.conn?_of_onContext (exec_connClose s k) hc nofun rfl hexec).symm.trans hd
    exact connClosed_state c

end Sys2Proof.Machine
end

section
/-! PROOFS. The exceptions family (60_exceptions.md): what a command that ends in an error leaves, and which commands
send which notifications. -/

namespace Sys2Proof.Machine

/-- The response a command is seen to add is the one of its effect. -/
theorem effect_of_exec_of_responses {i : Instr} {s t : State} {r : Response} (hexec : exec i s = .next t)
    (hresponses : t.responses = s.responses ++ [r]) : Effect i s t r := by
  obtain ⟨r', heffect⟩ := effect_of_exec hexec
  have hr : [r'] = [r] := List.append_cancel_left (heffect.responses_eq.symm.trans hresponses)
  rwa [List.singleton_inj.mp hr] at heffect

/-! ## Errors -/

/-- Settles O15: of the effects a command can have, only the failure's status is an error. -/
theorem errorChangesNothing : Obligations.ErrorChangesNothing := by
  intro i s t r hexec hresponses herror
  cases effect_of_exec_of_responses hexec hresponses with
  | failed e => exact ⟨rfl, rfl, rfl⟩
  | pure r => exact absurd rfl herror
  | onContext k c d => exact absurd rfl herror

/-! ## Notifications -/

/-- The notifications of a CONN.* command: none, the one for the state just entered (R276), or the one for the data
received (R277). -/
theorem ContextEffect.notes_cases {k : BitVec 8} {s : State} {c : Conn} {i : Instr} {d : Done}
    (h : ContextEffect k s c i d) :
    d.notes = [] ∨
      (∃ x : TcpState, d.notes = noteState c.cbEn x ∧
        ((i = .connConnect k ∧ x.code = 4#4) ∨ (i = .connListen k ∧ x.code = 1#4) ∨
          (i = .connClose k ∧ x.code = 5#4 ∧ c.state ≠ .closed))) ∨
      (d.notes = noteData c.cbEn s.op.bytes.data ∧ i = .connRecv k) := by
  cases h with
  | create => exact .inl rfl
  | connect d h =>
    obtain ⟨-, rfl⟩ := connConnected_ok h
    exact .inr (.inl ⟨.established, rfl, .inl ⟨rfl, rfl⟩⟩)
  | listen => exact .inr (.inl ⟨.listen, rfl, .inr (.inl ⟨rfl, rfl⟩)⟩)
  | send d h =>
    obtain ⟨-, -, rfl⟩ := connSent_ok h
    exact .inl rfl
  | recv d h =>
    obtain ⟨-, rfl⟩ := connReceived_ok h
    exact .inr (.inr ⟨rfl, rfl⟩)
  | close =>
    by_cases hstate : c.state = .closed
    · rw [connClosed_of_closed hstate]
      exact .inl rfl
    · rw [connClosed_of_not_closed hstate]
      exact .inr (.inl ⟨.finWait1, rfl, .inr (.inr ⟨rfl, rfl, hstate⟩)⟩)
  | setCb e => exact .inl rfl
  | rdReg r => exact .inl rfl
  | rdBuf b => exact .inl rfl

/-- A response with notifications is that of a CONN.* command that succeeded: an error has none (R272). -/
theorem Effect.notes_cases {i : Instr} {s t : State} {r : Response} (h : Effect i s t r) :
    r.notes = [] ∨ ∃ k c d, s.conn? k = some c ∧ ContextEffect k s c i d ∧ r.notes = d.notes := by
  cases h with
  | failed e => exact .inl rfl
  | pure r => exact .inl rfl
  | onContext k c d hk hc ho h => exact .inr ⟨k, c, d, hc, h, rfl⟩

/-- Settles O23, by the notifications a CONN.* command can have and the CB_EN bit that each kind needs. -/
theorem notificationSources : Obligations.NotificationSources := by
  intro i s t r hexec hresponses
  obtain hnone | ⟨k, c, d, hc, hcontext, hr⟩ := (effect_of_exec_of_responses hexec hresponses).notes_cases
  · simp [hnone]
  obtain hnone | ⟨x, hstate, hsource⟩ | ⟨hdata, hrecv⟩ := hcontext.notes_cases
  · simp [hr, hnone]
  · rw [hr, hstate]
    refine ⟨noteState_length_le .., fun y hy => ?_, fun B hB => nomatch (mem_noteState hB).2⟩
    obtain ⟨hcb, hyx⟩ := mem_noteState hy
    cases hyx
    exact ⟨k, c, hc, hcb, hsource⟩
  · rw [hr, hdata]
    refine ⟨noteData_length_le .., fun y hy => (nomatch (mem_noteData hy).2), fun B hB => ?_⟩
    obtain ⟨hcb, hBd⟩ := mem_noteData hB
    cases hBd
    exact ⟨k, c, hc, hcb, hrecv, rfl⟩

end Sys2Proof.Machine
end

section
/-! PROOFS. The reset family (70_reset_and_hazards.md): what a hardware reset leaves, and that the invariant holds
there. -/

namespace Sys2Proof.Machine

/-! ## The block just after reset -/

@[simp] theorem State.resetWith_nConn (p : Params) (n : Nat) : (State.resetWith p n).nConn = n :=
  List.length_replicate

/-- Reset creates each context with the values of R32. -/
theorem State.resetWith_conns_getElem? (p : Params) {n k : Nat} (hk : k < n) :
    (State.resetWith p n).conns[k]? = some (Conn.reset p) :=
  List.getElem?_replicate_of_lt hk

/-- A hardware reset of a block in use differs from `resetWith` in the count of draws only (log entry 3). -/
theorem State.hardwareReset_eq (s : State) :
    s.hardwareReset = (State.resetWith s.cfg s.nConn).advanceDraws s.draws := by
  simp only [State.hardwareReset, State.advanceDraws, State.resetWith, Nat.zero_add]

/-- Settles O10: every context of the block after reset is `Conn.reset`, and a hardware reset leaves that block up to
its count of draws. -/
theorem resetPutsEveryContextAtCreation : Obligations.ResetPutsEveryContextAtCreation := by
  refine ⟨fun p n k hk => State.resetWith_conns_getElem? p hk, fun p n => ?_, fun s => ?_⟩
  · exact ⟨State.resetWith_nConn p n, rfl, rfl, rfl⟩
  · rw [State.hardwareReset_eq]
    exact ⟨rfl, rfl, rfl, rfl⟩

/-! ## The invariant at reset -/

/-- A context at its reset values is stable: it is the one CONN.CREATE leaves for a record of zeros (R36). -/
theorem Conn.reset_stable (p : Params) : (Conn.reset p).Stable p := connCreated_stable p {}

/-- The invariant holds after reset for any number of contexts R7 allows. -/
theorem State.resetWith_inv (p : Params) {n : Nat} (hpos : 1 ≤ n) (hle : n ≤ 256) : (State.resetWith p n).Inv where
  nConn_pos := by rwa [State.resetWith_nConn]
  nConn_le := by rwa [State.resetWith_nConn]
  conns c hc := by
    obtain rfl : c = Conn.reset p := List.eq_of_mem_replicate hc
    exact Conn.reset_stable p
  responses _ hr := absurd hr List.not_mem_nil

/-- Settles O12: `State.reset` is the block with one context, the default N_CONN of R7. -/
theorem resetMeetsInvariant : Obligations.ResetMeetsInvariant :=
  ⟨fun p _ hpos hle => State.resetWith_inv p hpos hle,
    State.resetWith_inv Config.params (n := Config.nConn) (by decide) (by decide)⟩

end Sys2Proof.Machine
end
